-- ==== Sys2Proof/Word.lean ====
section
/-! DEFINITION. The plain words of the model: bytes, 16-bit values, text lines
(spec/00_scope.md R9, R10, R14). -/

namespace Sys2Proof

/-- A byte `0 .. 255`; bit 0 is the least significant bit (R9). -/
abbrev Byte := BitVec 8

/-- A 16-bit value: a 16-bit displacement, address or immediate (R10, R42). -/
abbrev Word16 := BitVec 16

/-- A text line: a finite sequence of characters with no line terminator (R14).
DESIGN CHOICE (safe, log 6): the sequence is a `List Char`, so that lines are plain data. -/
abbrev Line := List Char

end Sys2Proof
end

