-- ==== Sys2Proof/Config.lean ====
section
/-! DEFINITION. What the spec leaves to the representation or leaves unspecified.
The parameters of spec/00_scope.md R5 that a test could show wrong (`JCC_SET`, `REGROM8`,
`SUBOP_POLICY`, `KW_ON_REG`) stand with the tables they govern: Decode.lean and Machine/Roms.lean.
The spec has no result it calls undefined, so there is no free value here. -/

namespace Sys2Proof

/-- The byte an offset below `LEN` holds when the image lists no entry for it.
DESIGN CHOICE (safe, log 1): a choice of representation, not of contents. Every image has exactly
one listing, and the bytes that are this value are the ones left out of it. -/
def Config.unlistedByte : Byte := 0x00#8

/-- `FAULT_AT` after reset, which the spec leaves unspecified (R24, R33).
DESIGN CHOICE (unsafe, log 2). No statement rests on its being 0. -/
def Config.faultAtReset : Nat := 0

end Sys2Proof
end

