-- ==== Sys2Proof/Syntax/Fields.lean ====
section
/-! DEFINITION. The field types an instruction is made of
(spec/30_encoding.md R61, R62, R67 to R69; spec/10_state.md R30). -/

namespace Sys2Proof

/-- The operand-size flag `w`: 0 = byte, 1 = word (R16). Also the size of an encoded immediate. -/
inductive Width
  | byte
  | word
  deriving DecidableEq, Repr

/-- The 15 conditions of the short conditional jumps, by the tag of R64. -/
inductive Cond
  | e | l | le | b | be | pe | o | s | nz | ge | g | ae | a | po | no
  deriving DecidableEq, Repr

/-- The operation kinds of a two-operand record (R30). -/
inductive Op
  | mov | add | sub | cmp
  deriving DecidableEq, Repr

/-- What `mod`, `rm` and the bytes after a mod-reg-rm byte encode (R68), one constructor per row. -/
inductive RmField
  /-- `mod = 00`, `rm` other than 110: a bare base expression, no byte follows. -/
  | base (rm : BitVec 3)
  /-- `mod = 00`, `rm = 110`: a 16-bit direct address follows. -/
  | direct (addr : Word16)
  /-- `mod = 01`: a signed 8-bit displacement follows. -/
  | disp8 (rm : BitVec 3) (d : Byte)
  /-- `mod = 10`: a signed 16-bit displacement follows. -/
  | disp16 (rm : BitVec 3) (d : Word16)
  /-- `mod = 11`: a register, no byte follows. -/
  | reg (rm : BitVec 3)
  deriving DecidableEq, Repr

/-- An immediate as encoded: one byte or two (R69). -/
inductive ImmField
  | imm8 (raw : Byte)
  | imm16 (raw : Word16)
  deriving DecidableEq, Repr

end Sys2Proof
end

