-- ==== Sys2Proof/Syntax.lean ====
section
/-! DEFINITION. The instructions of DEC: one constructor per row of spec/opcode_table.json, in the
table's order, each carrying every field its encoding carries (spec/30_encoding.md R67). -/

namespace Sys2Proof

inductive Instr
  /-- R141 -/
  | je (disp : Byte)
  /-- R142 -/
  | jl (disp : Byte)
  /-- R143 -/
  | jle (disp : Byte)
  /-- R144 -/
  | jb (disp : Byte)
  /-- R145 -/
  | jbe (disp : Byte)
  /-- R146 -/
  | jpe (disp : Byte)
  /-- R147 -/
  | jo (disp : Byte)
  /-- R148 -/
  | js (disp : Byte)
  /-- R149 -/
  | jnz (disp : Byte)
  /-- R150 -/
  | jge (disp : Byte)
  /-- R151 -/
  | jg (disp : Byte)
  /-- R152 -/
  | jae (disp : Byte)
  /-- R153 -/
  | ja (disp : Byte)
  /-- R154 -/
  | jpo (disp : Byte)
  /-- R155 -/
  | jno (disp : Byte)
  /-- R161, variant MOV_RM_REG. `d` is the direction flag: `true` when the register field is the
  destination (R117). -/
  | movRmReg (d : Bool) (w : Width) (reg : BitVec 3) (rm : RmField)
  /-- R162, variant ADD_RM_REG -/
  | addRmReg (d : Bool) (w : Width) (reg : BitVec 3) (rm : RmField)
  /-- R163, variant SUB_RM_REG -/
  | subRmReg (d : Bool) (w : Width) (reg : BitVec 3) (rm : RmField)
  /-- R164, variant CMP_RM_REG -/
  | cmpRmReg (d : Bool) (w : Width) (reg : BitVec 3) (rm : RmField)
  /-- R171, variant ARITH_IMM_RM, sub-op 000. `sx` is the sign-extend flag `s`. -/
  | addImmRm (sx : Bool) (w : Width) (rm : RmField) (imm : ImmField)
  /-- R172, variant ARITH_IMM_RM, sub-op 101 -/
  | subImmRm (sx : Bool) (w : Width) (rm : RmField) (imm : ImmField)
  /-- R173, variant ARITH_IMM_RM, sub-op 111 -/
  | cmpImmRm (sx : Bool) (w : Width) (rm : RmField) (imm : ImmField)
  /-- R181, variant ADD_IMM_ACC -/
  | addImmAcc (w : Width) (imm : ImmField)
  /-- R182, variant SUB_IMM_ACC -/
  | subImmAcc (w : Width) (imm : ImmField)
  /-- R183, variant CMP_IMM_ACC -/
  | cmpImmAcc (w : Width) (imm : ImmField)
  /-- R190, variant MOV_IMM_REG -/
  | movImmReg (w : Width) (reg : BitVec 3) (imm : ImmField)
  /-- R195, variant MOV_IMM_RM. `xxx` is the middle field of the mod-rm byte, which decoding ignores
  (spec/92_eei_decisions.md D8, log 13); it is kept so that the encoding loses no bit. -/
  | movImmRm (w : Width) (xxx : BitVec 3) (rm : RmField) (imm : ImmField)
  /-- R201, variant MOV_MEM_TO_ACC -/
  | movMemToAcc (w : Width) (addr : Word16)
  /-- R202, variant MOV_ACC_TO_MEM -/
  | movAccToMem (w : Width) (addr : Word16)
  deriving DecidableEq, Repr

end Sys2Proof
end

