-- ==== Sys2Proof/WellFormed.lean ====
section
/-! DEFINITION. When the fields of an instruction are ones an encoding can carry
(spec/30_encoding.md R68, R69). -/

namespace Sys2Proof

/-- `mod = 00`, `rm = 110` is the direct address, never a bare base (R68; R31: "`MemEA` with `rm = 6`
and `dispw = 0` never occurs"). -/
def RmField.wf : RmField → Bool
  | .base rm => rm != 6#3
  | _ => true

/-- The immediate has the encoded size `n`. -/
def ImmField.fits (n : Width) : ImmField → Bool
  | .imm8 _ => n == .byte
  | .imm16 _ => n == .word

/-- Each immediate has the size R69 gives its family, and each register-or-memory field is one R68
lists. -/
def Instr.wf : Instr → Bool
  | .je _ | .jl _ | .jle _ | .jb _ | .jbe _ | .jpe _ | .jo _ | .js _
  | .jnz _ | .jge _ | .jg _ | .jae _ | .ja _ | .jpo _ | .jno _ => true
  | .movRmReg _ _ _ rm | .addRmReg _ _ _ rm | .subRmReg _ _ _ rm | .cmpRmReg _ _ _ rm => rm.wf
  | .addImmRm sx w rm imm | .subImmRm sx w rm imm | .cmpImmRm sx w rm imm =>
      rm.wf && imm.fits (if w = .word ∧ sx = false then .word else .byte)
  | .addImmAcc w imm | .subImmAcc w imm | .cmpImmAcc w imm => imm.fits w
  | .movImmReg w _ imm => imm.fits w
  | .movImmRm w _ rm imm => rm.wf && imm.fits w
  | .movMemToAcc _ _ | .movAccToMem _ _ => true

end Sys2Proof
end

