-- ==== Sys2Proof/Decode.lean ====
section
/-! DEFINITION. From bytes to an instruction, and back: the byte layouts of
spec/30_encoding.md (R60 to R72), the classifier of spec/40_classifier.md (R93, R94), and the
encoder written from the same tables. -/

namespace Sys2Proof

/-! ### Bit fields and byte order -/

/-- Little-endian: `lo + 256 * hi`, low byte first (R42 to R44). -/
def le16 (lo hi : Byte) : Word16 := BitVec.ofNat 16 (lo.toNat + 256 * hi.toNat)

/-- The byte at the lower offset: `v mod 256` (R43). -/
def loByte (v : Word16) : Byte := BitVec.ofNat 8 (v.toNat % 256)

/-- The byte at the higher offset: `v div 256` (R43). -/
def hiByte (v : Word16) : Byte := BitVec.ofNat 8 (v.toNat / 256)

/-- `mod = m[7:6]` (R62). -/
def modOf (m : Byte) : BitVec 2 := m.extractLsb' 6 2

/-- `reg = m[5:3]` (R62). -/
def regOf (m : Byte) : BitVec 3 := m.extractLsb' 3 3

/-- `rm = m[2:0]` (R62). -/
def rmOf (m : Byte) : BitVec 3 := m.extractLsb' 0 3

/-- `b[i]`, one bit of a byte (R9). -/
def bitOf (b : Byte) (i : Nat) : Bool := b.getLsbD i

/-- The size flag a bit stands for: 0 = byte, 1 = word (R16). -/
def widthOfBit : Bool → Width
  | false => .byte
  | true => .word

/-- The bit a size flag is encoded as. -/
def Width.bit : Width → Bool
  | .byte => false
  | .word => true

/-- Number of bytes of an immediate of this encoded size (R69). -/
def Width.nbytes : Width → Nat
  | .byte => 1
  | .word => 2

/-- The encoded size of an ARITH_IMM_RM immediate: two bytes when `w = 1` and `s = 0`, else one
(R69). -/
def arithImmWidth (sx : Bool) (w : Width) : Width :=
  if w = .word ∧ sx = false then .word else .byte

/-! ### Lengths -/

/-- DispLen (R68). -/
def RmField.dispLen : RmField → Nat
  | .base _ => 0
  | .direct _ => 2
  | .disp8 _ _ => 1
  | .disp16 _ _ => 2
  | .reg _ => 0

/-- ImmLen (R69): the bytes the immediate occupies. -/
def ImmField.immLen : ImmField → Nat
  | .imm8 _ => 1
  | .imm16 _ => 2

/-- Instruction length `L`, leading byte included (R70). -/
def Instr.length : Instr → Nat
  | .je _ | .jl _ | .jle _ | .jb _ | .jbe _ | .jpe _ | .jo _ | .js _
  | .jnz _ | .jge _ | .jg _ | .jae _ | .ja _ | .jpo _ | .jno _ => 2
  | .movRmReg _ _ _ rm | .addRmReg _ _ _ rm | .subRmReg _ _ _ rm | .cmpRmReg _ _ _ rm =>
      2 + rm.dispLen
  | .addImmRm _ _ rm imm | .subImmRm _ _ rm imm | .cmpImmRm _ _ rm imm =>
      2 + rm.dispLen + imm.immLen
  | .addImmAcc _ imm | .subImmAcc _ imm | .cmpImmAcc _ imm => 1 + imm.immLen
  | .movImmReg _ _ imm => 1 + imm.immLen
  | .movImmRm _ _ rm imm => 2 + rm.dispLen + imm.immLen
  | .movMemToAcc _ _ | .movAccToMem _ _ => 3

/-- The longest instruction (R60: "2 to 6 consecutive bytes"). -/
def maxLength : Nat := 6

/-! ### Classification: CLASSROM and CLASS -/

/-- The variant tags of CLASSROM (R63). -/
inductive Variant
  | jcc (c : Cond)
  | movMemToAcc | movAccToMem | movImmRm | addImmAcc | subImmAcc | cmpImmAcc
  | movRmReg | addRmReg | subRmReg | cmpRmReg | arithImmRm
  | movImmReg
  deriving DecidableEq, Repr

/-- One row of CLASSROM: `(width, pattern, variant)` (R63). -/
structure ClassRow where
  width   : Nat
  pattern : Nat
  variant : Variant
  deriving DecidableEq, Repr

/-- A row matches a leading byte `b` when `b[7 : 8-width] = pattern` (R63). -/
def rowMatches (b : Byte) (r : ClassRow) : Bool := b.toNat >>> (8 - r.width) == r.pattern

/-- Ranks 1 to 15: the set `JCC_SET` of 15 conditional-jump bytes (R64, log 10). -/
def classRows8 : List ClassRow :=
  [⟨8, 0x74, .jcc .e⟩, ⟨8, 0x7C, .jcc .l⟩, ⟨8, 0x7E, .jcc .le⟩, ⟨8, 0x72, .jcc .b⟩,
   ⟨8, 0x76, .jcc .be⟩, ⟨8, 0x7A, .jcc .pe⟩, ⟨8, 0x70, .jcc .o⟩, ⟨8, 0x78, .jcc .s⟩,
   ⟨8, 0x75, .jcc .nz⟩, ⟨8, 0x7D, .jcc .ge⟩, ⟨8, 0x7F, .jcc .g⟩, ⟨8, 0x73, .jcc .ae⟩,
   ⟨8, 0x77, .jcc .a⟩, ⟨8, 0x7B, .jcc .po⟩, ⟨8, 0x71, .jcc .no⟩]

/-- Ranks 16 to 21 (R63, log 16). -/
def classRows7 : List ClassRow :=
  [⟨7, 0b1010000, .movMemToAcc⟩, ⟨7, 0b1010001, .movAccToMem⟩, ⟨7, 0b1100011, .movImmRm⟩,
   ⟨7, 0b0000010, .addImmAcc⟩, ⟨7, 0b0010110, .subImmAcc⟩, ⟨7, 0b0011110, .cmpImmAcc⟩]

/-- Ranks 22 to 26 (R63, log 16). -/
def classRows6 : List ClassRow :=
  [⟨6, 0b100010, .movRmReg⟩, ⟨6, 0b000000, .addRmReg⟩, ⟨6, 0b001010, .subRmReg⟩,
   ⟨6, 0b001110, .cmpRmReg⟩, ⟨6, 0b100000, .arithImmRm⟩]

/-- Rank 27 (R63). -/
def classRows4 : List ClassRow := [⟨4, 0b1011, .movImmReg⟩]

/-- CLASSROM, the 27 rows in rank order, longest width first (R63). -/
def classrom : List ClassRow := classRows8 ++ classRows7 ++ classRows6 ++ classRows4

/-- CLASS: the variant of the first matching row in rank order, or none (R93). -/
def classify (b : Byte) : Option Variant := (classrom.find? (rowMatches b)).map (·.variant)

/-! ### Reading fields from the bytes that follow -/

/-- One byte, and what is left. -/
def take8 : List Byte → Option (Byte × List Byte)
  | [] => none
  | b :: bs => some (b, bs)

/-- Two bytes, little-endian, and what is left: no partial value when only one is there (R44). -/
def take16 : List Byte → Option (Word16 × List Byte)
  | lo :: hi :: bs => some (le16 lo hi, bs)
  | _ => none

/-- The register-or-memory field with its displacement or address bytes (R68, R110). -/
def takeRm (mod : BitVec 2) (rm : BitVec 3) (bs : List Byte) : Option (RmField × List Byte) :=
  if mod = 3#2 then some (.reg rm, bs)
  else if mod = 1#2 then (take8 bs).map fun p => (.disp8 rm p.1, p.2)
  else if mod = 2#2 then (take16 bs).map fun p => (.disp16 rm p.1, p.2)
  else if rm = 6#3 then (take16 bs).map fun p => (.direct p.1, p.2)
  else some (.base rm, bs)

/-- An immediate of the given encoded size (R119). -/
def takeImm (n : Width) (bs : List Byte) : Option (ImmField × List Byte) :=
  match n with
  | .byte => (take8 bs).map fun p => (.imm8 p.1, p.2)
  | .word => (take16 bs).map fun p => (.imm16 p.1, p.2)

/-! ### The decoders -/

/-- What the bytes at the cursor are. -/
inductive Decoded
  /-- A whole instruction. -/
  | instr (i : Instr)
  /-- A leading byte that matches no row of CLASSROM (R95). -/
  | unrecognised
  /-- ARITH_IMM_RM with sub-op 001, 010, 011, 100 or 110 (R174). -/
  | undefinedSubOp
  /-- A byte the instruction needs is missing (R211). -/
  | truncated
  deriving DecidableEq, Repr

/-- The jump of a condition (R141 to R155). -/
def jccInstr : Cond → Byte → Instr
  | .e => .je
  | .l => .jl
  | .le => .jle
  | .b => .jb
  | .be => .jbe
  | .pe => .jpe
  | .o => .jo
  | .s => .js
  | .nz => .jnz
  | .ge => .jge
  | .g => .jg
  | .ae => .jae
  | .a => .ja
  | .po => .jpo
  | .no => .jno

/-- DecodeJcc (R140). -/
def decodeJcc (c : Cond) (bs : List Byte) : Decoded :=
  match take8 bs with
  | none => .truncated
  | some (d, _) => .instr (jccInstr c d)

/-- DecodeRmReg (R160): `d` is bit 1 and `w` bit 0 of the leading byte. -/
def decodeRmReg (mk : Bool → Width → BitVec 3 → RmField → Instr) (b : Byte) (bs : List Byte) :
    Decoded :=
  match take8 bs with
  | none => .truncated
  | some (m, bs) =>
    match takeRm (modOf m) (rmOf m) bs with
    | none => .truncated
    | some (rm, _) => .instr (mk (bitOf b 1) (widthOfBit (bitOf b 0)) (regOf m) rm)

/-- The operation a sub-op selects: "ADD=000/SUB=101/CMP=111" (R170), or none (R174). -/
def arithInstr (op3 : BitVec 3) : Option (Bool → Width → RmField → ImmField → Instr) :=
  if op3 = 0#3 then some .addImmRm
  else if op3 = 5#3 then some .subImmRm
  else if op3 = 7#3 then some .cmpImmRm
  else none

/-- DecodeArithImmRm (R170): the sub-op is tested before any further read (R215). -/
def decodeArithImmRm (b : Byte) (bs : List Byte) : Decoded :=
  match take8 bs with
  | none => .truncated
  | some (m, bs) =>
    match arithInstr (regOf m) with
    | none => .undefinedSubOp
    | some mk =>
      match takeRm (modOf m) (rmOf m) bs with
      | none => .truncated
      | some (rm, bs) =>
        match takeImm (arithImmWidth (bitOf b 1) (widthOfBit (bitOf b 0))) bs with
        | none => .truncated
        | some (imm, _) => .instr (mk (bitOf b 1) (widthOfBit (bitOf b 0)) rm imm)

/-- DecodeImmAcc (R180). -/
def decodeImmAcc (mk : Width → ImmField → Instr) (b : Byte) (bs : List Byte) : Decoded :=
  match takeImm (widthOfBit (bitOf b 0)) bs with
  | none => .truncated
  | some (imm, _) => .instr (mk (widthOfBit (bitOf b 0)) imm)

/-- DecodeMovImmReg (R190): `w` is bit 3 and the register field bits 2:0 of the leading byte. -/
def decodeMovImmReg (b : Byte) (bs : List Byte) : Decoded :=
  match takeImm (widthOfBit (bitOf b 3)) bs with
  | none => .truncated
  | some (imm, _) => .instr (.movImmReg (widthOfBit (bitOf b 3)) (b.extractLsb' 0 3) imm)

/-- DecodeMovImmRm (R195). -/
def decodeMovImmRm (b : Byte) (bs : List Byte) : Decoded :=
  match take8 bs with
  | none => .truncated
  | some (m, bs) =>
    match takeRm (modOf m) (rmOf m) bs with
    | none => .truncated
    | some (rm, bs) =>
      match takeImm (widthOfBit (bitOf b 0)) bs with
      | none => .truncated
      | some (imm, _) => .instr (.movImmRm (widthOfBit (bitOf b 0)) (regOf m) rm imm)

/-- DecodeMovMemAcc (R200). -/
def decodeMovMemAcc (mk : Width → Word16 → Instr) (b : Byte) (bs : List Byte) : Decoded :=
  match take16 bs with
  | none => .truncated
  | some (a, _) => .instr (mk (widthOfBit (bitOf b 0)) a)

/-- The operand decoder a variant tag selects (R94). -/
def decodeVariant (v : Variant) (b : Byte) (bs : List Byte) : Decoded :=
  match v with
  | .jcc c => decodeJcc c bs
  | .movMemToAcc => decodeMovMemAcc .movMemToAcc b bs
  | .movAccToMem => decodeMovMemAcc .movAccToMem b bs
  | .movImmRm => decodeMovImmRm b bs
  | .addImmAcc => decodeImmAcc .addImmAcc b bs
  | .subImmAcc => decodeImmAcc .subImmAcc b bs
  | .cmpImmAcc => decodeImmAcc .cmpImmAcc b bs
  | .movRmReg => decodeRmReg .movRmReg b bs
  | .addRmReg => decodeRmReg .addRmReg b bs
  | .subRmReg => decodeRmReg .subRmReg b bs
  | .cmpRmReg => decodeRmReg .cmpRmReg b bs
  | .arithImmRm => decodeArithImmRm b bs
  | .movImmReg => decodeMovImmReg b bs

/-- The decoder, total on any bytes: `bs` are the bytes from the cursor on, as far as the image goes.
With no byte there is nothing to classify (R44: the read of the leading byte raises). -/
def decode (bs : List Byte) : Decoded :=
  match bs with
  | [] => .truncated
  | b :: bs =>
    match classify b with
    | none => .unrecognised
    | some v => decodeVariant v b bs

/-! ### The encoder -/

/-- The leading byte of a jump (R64). -/
def Cond.opcode : Cond → Byte
  | .e => 0b01110100#8
  | .l => 0b01111100#8
  | .le => 0b01111110#8
  | .b => 0b01110010#8
  | .be => 0b01110110#8
  | .pe => 0b01111010#8
  | .o => 0b01110000#8
  | .s => 0b01111000#8
  | .nz => 0b01110101#8
  | .ge => 0b01111101#8
  | .g => 0b01111111#8
  | .ae => 0b01110011#8
  | .a => 0b01110111#8
  | .po => 0b01111011#8
  | .no => 0b01110001#8

/-- Format P7: `pattern7 w` (R61). -/
def leadP7 (pattern : BitVec 7) (w : Width) : Byte := pattern ++ BitVec.ofBool w.bit

/-- Format P6: `pattern6 (d|s) w` (R61). -/
def leadP6 (pattern : BitVec 6) (x : Bool) (w : Width) : Byte :=
  pattern ++ BitVec.ofBool x ++ BitVec.ofBool w.bit

/-- Format P4: `pattern4 w reg` (R61). -/
def leadP4 (pattern : BitVec 4) (w : Width) (reg : BitVec 3) : Byte :=
  pattern ++ BitVec.ofBool w.bit ++ reg

/-- The mod-reg-rm byte `[mod][reg][rm]` (R62). -/
def modRegRm (mod : BitVec 2) (reg rm : BitVec 3) : Byte := mod ++ reg ++ rm

/-- Two bytes of a 16-bit field, low byte first (R42). -/
def bytes16 (v : Word16) : List Byte := [loByte v, hiByte v]

/-- The mod-reg-rm byte with middle field `reg`, then the displacement or address bytes (R68). -/
def RmField.encode (reg : BitVec 3) : RmField → List Byte
  | .base rm => [modRegRm 0b00#2 reg rm]
  | .direct a => modRegRm 0b00#2 reg 0b110#3 :: bytes16 a
  | .disp8 rm d => [modRegRm 0b01#2 reg rm, d]
  | .disp16 rm d => modRegRm 0b10#2 reg rm :: bytes16 d
  | .reg rm => [modRegRm 0b11#2 reg rm]

/-- The immediate bytes (R69). -/
def ImmField.encode : ImmField → List Byte
  | .imm8 b => [b]
  | .imm16 v => bytes16 v

/-- The bytes of an instruction (R67). -/
def encode : Instr → List Byte
  | .je d => [Cond.opcode .e, d]
  | .jl d => [Cond.opcode .l, d]
  | .jle d => [Cond.opcode .le, d]
  | .jb d => [Cond.opcode .b, d]
  | .jbe d => [Cond.opcode .be, d]
  | .jpe d => [Cond.opcode .pe, d]
  | .jo d => [Cond.opcode .o, d]
  | .js d => [Cond.opcode .s, d]
  | .jnz d => [Cond.opcode .nz, d]
  | .jge d => [Cond.opcode .ge, d]
  | .jg d => [Cond.opcode .g, d]
  | .jae d => [Cond.opcode .ae, d]
  | .ja d => [Cond.opcode .a, d]
  | .jpo d => [Cond.opcode .po, d]
  | .jno d => [Cond.opcode .no, d]
  | .movRmReg d w reg rm => leadP6 0b100010#6 d w :: rm.encode reg
  | .addRmReg d w reg rm => leadP6 0b000000#6 d w :: rm.encode reg
  | .subRmReg d w reg rm => leadP6 0b001010#6 d w :: rm.encode reg
  | .cmpRmReg d w reg rm => leadP6 0b001110#6 d w :: rm.encode reg
  | .addImmRm sx w rm imm => leadP6 0b100000#6 sx w :: (rm.encode 0b000#3 ++ imm.encode)
  | .subImmRm sx w rm imm => leadP6 0b100000#6 sx w :: (rm.encode 0b101#3 ++ imm.encode)
  | .cmpImmRm sx w rm imm => leadP6 0b100000#6 sx w :: (rm.encode 0b111#3 ++ imm.encode)
  | .addImmAcc w imm => leadP7 0b0000010#7 w :: imm.encode
  | .subImmAcc w imm => leadP7 0b0010110#7 w :: imm.encode
  | .cmpImmAcc w imm => leadP7 0b0011110#7 w :: imm.encode
  | .movImmReg w reg imm => leadP4 0b1011#4 w reg :: imm.encode
  | .movImmRm w xxx rm imm => leadP7 0b1100011#7 w :: (rm.encode xxx ++ imm.encode)
  | .movMemToAcc w a => leadP7 0b1010000#7 w :: bytes16 a
  | .movAccToMem w a => leadP7 0b1010001#7 w :: bytes16 a

/-! ### Words numbered as the opcode table numbers them -/

/-- The six bytes of an instruction whose bits are `w`: bit 0 is the least significant bit of the
first byte, and every bit above `nbits` is 0. -/
def tableBytes (nbits w : Nat) : List Byte :=
  (List.range maxLength).map fun k => BitVec.ofNat 8 ((w % 2 ^ nbits) >>> (8 * k))

/-- The instruction the decoder reads from such a word. -/
def decodeTableWord (nbits w : Nat) : Option Instr :=
  match decode (tableBytes nbits w) with
  | .instr i => some i
  | .unrecognised => none
  | .undefinedSubOp => none
  | .truncated => none

end Sys2Proof
end

