-- ==== Sys2Proof/Machine/State.lean ====
section
/-! DEFINITION. The state of DEC and the reasons a step can stop
(spec/10_state.md R20 to R25, R33; spec/20_memory.md R40). -/

namespace Sys2Proof.Machine

/-- The image's contents: `(offset, byte)` pairs, offsets strictly rising, no entry equal to
`Config.unlistedByte` (log 1). -/
abbrev Memory := List Host.Cell

/-- `STATUS` (R23). -/
inductive Status
  /-- A pass is in progress. -/
  | run
  /-- The cursor reached the end of the image. -/
  | done
  /-- A truncated instruction aborted the pass. -/
  | faultOob
  deriving DecidableEq, Repr

/-- The exceptions a read can raise inside a step. DEC's exception is taken (R211): the step goes on
to a NEXT state with `STATUS = FAULT_OOB`, so no step and no meaning answers a fault (log 5). -/
inductive Fault
  /-- `OutOfBounds` (R44, R211): raised by `memRead1` and `memRead2` when a byte lies at or beyond
  `LEN`. Every reader turns it into the exception entry `raiseOutOfBounds`. Safe. -/
  | outOfBounds
  deriving DecidableEq, Repr

/-- Refusals. Every instruction of the table has its meaning, so none is ever answered. -/
inductive Refusal
  /-- An instruction without a meaning yet, rejected in `exec`'s arm by its mnemonic. Safe. -/
  | notModelled (mnemonic : String)
  deriving DecidableEq, Repr

/-- The state `(pc, STATUS, FAULT_AT, OUT)` of R20, with the host-supplied image and its length, which
no step writes (R7, R41; log 3). -/
structure State where
  /-- `IMG`: the image's contents (R40). -/
  img : Memory
  /-- `LEN`: the exact number of valid bytes (R5, R40). -/
  len : Nat
  /-- `pc`: the cursor (R21). -/
  pc : Nat
  /-- `STATUS` (R23). -/
  status : Status
  /-- `FAULT_AT`: the offset of the truncated instruction's leading byte (R24). -/
  faultAt : Nat
  /-- `OUT`: the lines emitted so far, oldest first (R25). -/
  out : List Line
  deriving DecidableEq, Repr

/-- Right after reset with the image nobody has supplied, `LEN = 0`: `pc = 0`, `OUT = []`,
`STATUS = DONE` (R33, R241; log 3). `FAULT_AT` is unspecified there (log 2). -/
def State.reset : State where
  img := []
  len := 0
  pc := 0
  status := .done
  faultAt := Config.faultAtReset
  out := []

end Sys2Proof.Machine
end

