-- ==== Sys2Proof/Machine/Flags.lean ====
section
/-! DEFINITION. The status computation. DEC has no flags and no condition codes
(spec/10_state.md R27): no instruction reads or writes one. Its one status register is `STATUS`
(R23), and the one computation over it is the end-of-step rule (spec/40_classifier.md R96). -/

namespace Sys2Proof.Machine

/-- `STATUS` after a decoded or skipped step that leaves the cursor at `pc`: `DONE` when it reached
`LEN`, else unchanged (R92, R96). -/
def statusAt (pc len : Nat) (old : Status) : Status := if pc = len then .done else old

/-- `DONE` and `FAULT_OOB` are terminal (R23). -/
def Status.terminal : Status → Bool
  | .run => false
  | .done => true
  | .faultOob => true

/-- The numeric encoding of `STATUS` (R23, spec/92_eei_decisions.md D3). No rule depends on it. -/
def Status.code : Status → Nat
  | .run => 0
  | .done => 1
  | .faultOob => 2

end Sys2Proof.Machine
end

