-- ==== Sys2Proof/Machine/Record.lean ====
section
/-! DEFINITION. The decoded record and its operands (spec/10_state.md R30, R31): values between a
decoder and the renderer, never state. -/

namespace Sys2Proof.Machine

/-- The size keyword of an immediate (R31, R122). -/
inductive Kw
  | none
  | byte
  | word
  deriving DecidableEq, Repr

/-- The displacement width of a memory operand (R31). -/
inductive DispW
  | d0
  | d8
  | d16
  deriving DecidableEq, Repr

/-- An operand (R31). -/
inductive Operand
  /-- `Reg { w, f }`, named `REGROM[w][f]`. -/
  | reg (w : Width) (f : BitVec 3)
  /-- `Imm { nbytes, raw, kw }`; `nbytes` and `raw` are the encoded immediate. -/
  | imm (raw : ImmField) (kw : Kw)
  /-- `MemEA { rm, dispw, disp }`, base `EAROM[rm]`. -/
  | memEA (rm : BitVec 3) (dispw : DispW) (disp : Int)
  /-- `MemDir { addr }`. -/
  | memDir (addr : Word16)
  deriving DecidableEq, Repr

/-- The decoded record (R30). The jump carries no size flag (spec/90_conflicts.md C8). -/
inductive Record
  | two (op : Op) (w : Width) (dst src : Operand)
  | jcc (cond : Cond) (disp8 : Byte)
  deriving DecidableEq, Repr

end Sys2Proof.Machine
end

