-- ==== Sys2Proof/Machine/Roms.lean ====
section
/-! DEFINITION. The lookup ROMs (spec/10_state.md R32) and two parameters of
spec/00_scope.md R5. -/

namespace Sys2Proof.Machine

/-- REGROM, byte half: the parameter `REGROM8` (R108). Entries 010, 110 and 111 are in doubt in the
source (R109, log 11). -/
def regrom8 (f : BitVec 3) : Line :=
  if f = 0#3 then "al".toList
  else if f = 1#3 then "cl".toList
  else if f = 2#3 then "dl".toList
  else if f = 3#3 then "bl".toList
  else if f = 4#3 then "ah".toList
  else if f = 5#3 then "ch".toList
  else if f = 6#3 then "dh".toList
  else "bh".toList

/-- REGROM, word half (R108). -/
def regrom16 (f : BitVec 3) : Line :=
  if f = 0#3 then "ax".toList
  else if f = 1#3 then "cx".toList
  else if f = 2#3 then "dx".toList
  else if f = 3#3 then "bx".toList
  else if f = 4#3 then "sp".toList
  else if f = 5#3 then "bp".toList
  else if f = 6#3 then "si".toList
  else "di".toList

/-- `RegName(w, f) = REGROM[w][f]` (R107). -/
def regName : Width → BitVec 3 → Line
  | .byte => regrom8
  | .word => regrom16

/-- EAROM (R112). -/
def earom (rm : BitVec 3) : Line :=
  if rm = 0#3 then "bx + si".toList
  else if rm = 1#3 then "bx + di".toList
  else if rm = 2#3 then "bp + si".toList
  else if rm = 3#3 then "bp + di".toList
  else if rm = 4#3 then "si".toList
  else if rm = 5#3 then "di".toList
  else if rm = 6#3 then "bp".toList
  else "bx".toList

/-- MNEMROM (R126). -/
def mnemrom : Op → Line
  | .mov => "mov".toList
  | .add => "add".toList
  | .sub => "sub".toList
  | .cmp => "cmp".toList

/-- JccMnemonic: the "rendered mnemonic" column of JCCROM (R64). -/
def jccMnemonic : Cond → Line
  | .e => "je".toList
  | .l => "jl".toList
  | .le => "jle".toList
  | .b => "jb".toList
  | .be => "jbe".toList
  | .pe => "jpe".toList
  | .o => "jo".toList
  | .s => "js".toList
  | .nz => "jnz".toList
  | .ge => "jge".toList
  | .g => "jg".toList
  | .ae => "jae".toList
  | .a => "ja".toList
  | .po => "jpo".toList
  | .no => "jno".toList

/-- `KW_ON_REG`: the keyword is rendered when the destination is a register too (R5, R122; log 14). -/
def kwOnReg : Bool := true

/-- `SUBOP_POLICY = skip1`: the bytes an undefined sub-op skips (R5, R174; log 12). -/
def subopSkip : Nat := 1

end Sys2Proof.Machine
end

