-- ==== Sys2Proof/Machine/Operands.lean ====
section
/-! DEFINITION. From encoded fields to operands and records
(spec/41_operand_blocks.md R107, R110 to R122, and the family decoders R140 to R200). -/

namespace Sys2Proof.Machine

/-- EAGEN: the register-or-memory operand (R110 to R115). `w` matters for a register only. -/
def rmOperand (w : Width) : RmField → Operand
  | .base rm => .memEA rm .d0 0
  | .direct a => .memDir a
  | .disp8 rm d => .memEA rm .d8 d.toInt
  | .disp16 rm d => .memEA rm .d16 d.toInt
  | .reg rm => .reg w rm

/-- The accumulator: "al" when `w = 0`, "ax" when `w = 1` (R180, R200). -/
def accumulator (w : Width) : Operand := .reg w 0#3

/-- `ImmValue`: one byte signed, two bytes unsigned (R120). With `s = 1`, `w = 1` the sign-extended
value is the same number (R121). -/
def immValue : ImmField → Int
  | .imm8 raw => raw.toInt
  | .imm16 raw => (raw.toNat : Int)

/-- The keyword an encoded size has: `byte` for one byte, `word` for two (R122). -/
def kwOf : ImmField → Kw
  | .imm8 _ => .byte
  | .imm16 _ => .word

/-- The keyword of an immediate whose destination is `dst` (R122, `KW_ON_REG`). -/
def kwFor (dst : Operand) (imm : ImmField) : Kw :=
  match dst with
  | .reg _ _ => if kwOnReg then kwOf imm else .none
  | .imm _ _ => kwOf imm
  | .memEA _ _ _ => kwOf imm
  | .memDir _ => kwOf imm

/-- The record of family RM_REG: `d = 1` makes the register the destination (R117, R160). -/
def recordRmReg (op : Op) (d : Bool) (w : Width) (reg : BitVec 3) (rm : RmField) : Record :=
  if d then .two op w (.reg w reg) (rmOperand w rm) else .two op w (rmOperand w rm) (.reg w reg)

/-- The record of an immediate to register-or-memory, with its keyword (R170, R195). -/
def recordImmRm (op : Op) (w : Width) (rm : RmField) (imm : ImmField) : Record :=
  .two op w (rmOperand w rm) (.imm imm (kwFor (rmOperand w rm) imm))

/-- The record of an immediate to a named register, without keyword (R180, R190). -/
def recordImmReg (op : Op) (w : Width) (f : BitVec 3) (imm : ImmField) : Record :=
  .two op w (.reg w f) (.imm imm .none)

end Sys2Proof.Machine
end

