-- ==== Sys2Proof/Machine/Render.lean ====
section
/-! DEFINITION. REND: decimal numbers, operands and the text line
(spec/41_operand_blocks.md R116, R125, R127). -/

namespace Sys2Proof.Machine

/-- The decimal digits of `n` in front of `acc`, by at most `fuel` divisions by ten. -/
def digitsAux : Nat → Nat → Line → Line
  | 0, _, acc => acc
  | fuel + 1, n, acc =>
    if n < 10 then Char.ofNat (48 + n) :: acc
    else digitsAux fuel (n / 10) (Char.ofNat (48 + n % 10) :: acc)

/-- The decimal numeral of a natural number, no leading zero (R125). -/
def decNat (n : Nat) : Line := digitsAux (n + 1) n []

/-- `dec(i)` (R14, R125). -/
def dec : Int → Line
  | .ofNat n => decNat n
  | .negSucc n => '-' :: decNat (n + 1)

/-- The text of a based memory operand: a displacement of 0 is omitted (R116). -/
def renderEA (base : Line) (disp : Int) : Line :=
  if disp = 0 then "[".toList ++ base ++ "]".toList
  else "[".toList ++ base ++ " + ".toList ++ dec disp ++ "]".toList

/-- The text of a direct address, an unsigned number (R111, R116). -/
def renderDir (addr : Word16) : Line := "[".toList ++ dec addr.toNat ++ "]".toList

/-- `KwText ++ " "`, or nothing (R127). -/
def kwText : Kw → Line
  | .none => []
  | .byte => "byte ".toList
  | .word => "word ".toList

/-- `RenderOperand` (R127). -/
def renderOperand : Operand → Line
  | .reg w f => regName w f
  | .imm raw kw => kwText kw ++ dec (immValue raw)
  | .memEA rm _ disp => renderEA (earom rm) disp
  | .memDir addr => renderDir addr

/-- `Render` (R127): the line of a decoded record. -/
def render : Record → Line
  | .two op _ dst src =>
      mnemrom op ++ " ".toList ++ renderOperand dst ++ ", ".toList ++ renderOperand src
  | .jcc cond disp8 => jccMnemonic cond ++ " ".toList ++ dec disp8.toInt

end Sys2Proof.Machine
end

