-- ==== Sys2Proof/Machine/Ops.lean ====
section
/-! DEFINITION. The named operations over the image, the cursor, `STATUS`, `FAULT_AT` and `OUT`:
reading the image (spec/20_memory.md), the three ways a step ends (spec/10_state.md R22), taking the
one exception (spec/60_exceptions.md R211) and the host's moves (spec/70_reset_and_hazards.md). -/

namespace Sys2Proof.Machine

/-! ### The image -/

/-- The byte at an offset: the listed one, else `Config.unlistedByte` (log 1). -/
def Memory.read : Memory → Nat → Byte
  | [], _ => Config.unlistedByte
  | (k, b) :: m, a => if k = a then b else Memory.read m a

/-- The image with byte `b` at offset `a`, in canonical form. Only the host writes the image (R41). -/
def Memory.write : Memory → Nat → Byte → Memory
  | [], a, b => if b = Config.unlistedByte then [] else [(a, b)]
  | (k, c) :: m, a, b =>
    if a < k then
      if b = Config.unlistedByte then (k, c) :: m else (a, b) :: (k, c) :: m
    else if a = k then
      if b = Config.unlistedByte then m else (a, b) :: m
    else (k, c) :: Memory.write m a b

/-- Bytes `bs` written at `a`, `a + 1`, and so on. -/
def Memory.writeAll : Memory → Nat → List Byte → Memory
  | m, _, [] => m
  | m, a, b :: bs => Memory.writeAll (Memory.write m a b) (a + 1) bs

/-- Offsets at least `lo` and strictly rising, and no entry an unlisted offset would read as. -/
def Memory.wfFrom : Nat → Memory → Bool
  | _, [] => true
  | lo, (k, b) :: m => decide (lo ≤ k) && decide (b ≠ Config.unlistedByte) && Memory.wfFrom (k + 1) m

/-- The canonical form (log 1). -/
def Memory.wf (m : Memory) : Bool := Memory.wfFrom 0 m

/-- Every listed offset is below `LEN`: offsets from `LEN` on do not exist (R40). -/
def Memory.below (len : Nat) : Memory → Bool
  | [] => true
  | (k, _) :: m => decide (k < len) && Memory.below len m

/-- `IMG[a]` (R40); meaningful for `a < LEN`. -/
def byteAt (s : State) (a : Nat) : Byte := Memory.read s.img a

/-- `MemRead(a, 1)` (R44). -/
def memRead1 (s : State) (a : Nat) : Except Fault Byte :=
  if a + 1 > s.len then .error .outOfBounds else .ok (byteAt s a)

/-- `MemRead(a, 2)` (R44): no partial value. -/
def memRead2 (s : State) (a : Nat) : Except Fault Word16 :=
  if a + 2 > s.len then .error .outOfBounds else .ok (le16 (byteAt s a) (byteAt s (a + 1)))

/-- At most `n` bytes from offset `a` on, each read through `MemRead`, as far as the image goes (R45). -/
def bytesFrom (s : State) : Nat → Nat → List Byte
  | 0, _ => []
  | n + 1, a =>
    match memRead1 s a with
    | .error _ => []
    | .ok b => b :: bytesFrom s n (a + 1)

/-- The bytes a step can look at: `IMG[pc .. min(pc+5, LEN-1)]` (R99; log 9). -/
def fetch (s : State) : List Byte := bytesFrom s maxLength s.pc

/-! ### How a step ends -/

/-- A line is appended (R25). -/
def emit (line : Line) (s : State) : State := { s with out := s.out ++ [line] }

/-- The cursor moves past `n` bytes and `STATUS` follows the end-of-step rule (R22, R92, R96). -/
def advance (n : Nat) (s : State) : State :=
  { s with pc := s.pc + n, status := statusAt (s.pc + n) s.len s.status }

/-- `raise OutOfBounds(pc)`: OUT and pc unchanged, `STATUS <- FAULT_OOB`, `FAULT_AT <- pc` (R211). -/
def raiseOutOfBounds (s : State) : State := { s with status := .faultOob, faultAt := s.pc }

/-- A skipped step of `n` bytes: no line, no fault (R95, R174). -/
def skip (n : Nat) (s : State) : State := advance n s

/-- A decoded step: the record's line is appended and the cursor moves past the `n` bytes of the
instruction, both at once (R92). All `n` bytes must lie inside the image, else `OutOfBounds` (R212;
log 7). -/
def retire (r : Record) (n : Nat) (s : State) : State :=
  if s.pc + n ≤ s.len then advance n (emit (render r) s) else raiseOutOfBounds s

/-! ### The host's moves: the way out of a terminal status -/

/-- The host supplies an image and its exact length (R243, R244 steps 1 and 2). It has no such move
while DEC is in `RUN` (R245; log 18). -/
def supplyImage (bytes : List Byte) (s : State) : Option State :=
  if s.status = .run then none
  else some { s with img := Memory.writeAll [] 0 bytes, len := bytes.length }

/-- The state after reset over the image the state holds (R33, R240). -/
def resetPass (s : State) : State :=
  { s with
    pc := 0
    status := if s.len = 0 then .done else .run
    faultAt := Config.faultAtReset
    out := [] }

/-- The host asserts reset, the only way out of `DONE` and `FAULT_OOB` and the only way into `RUN`
(R218, R240); no move while in `RUN` (R243). -/
def assertReset (s : State) : Option State := if s.status = .run then none else some (resetPass s)

/-- A new pass: supply an image, then assert reset (R244). -/
def startPass (bytes : List Byte) (s : State) : Option State :=
  (supplyImage bytes s).bind assertReset

/-- The state with `bytes` placed at the cursor, `LEN` covering them, in `RUN`: what a fetch there
needs, and nothing else (log 3). -/
def placeAtCursor (bytes : List Byte) (s : State) : State :=
  { s with
    img := Memory.writeAll s.img s.pc bytes
    len := max s.len (s.pc + bytes.length)
    status := .run }

end Sys2Proof.Machine
end

