-- ==== Sys2Proof/Machine/ArithImmRm.lean ====
section
/-! DEFINITION. Family ARITH_IMM_RM (spec/44_arith_imm_rm.md): immediate to register-or-memory.
The sign-extend flag fixes how many immediate bytes there are (R69) and, with one byte, changes
nothing in the rendered number (R121); the undefined sub-ops are no instructions (R174, Decode.lean). -/

namespace Sys2Proof.Machine

/-- `DecodeArithImmRm(b, pc)` for a defined sub-op, and the end of its step (R170). -/
def execArithImmRm (op : Op) (w : Width) (rm : RmField) (imm : ImmField) (s : State) :
    Host.Outcome State Fault Refusal :=
  .next (retire (recordImmRm op w rm imm) (2 + rm.dispLen + imm.immLen) s)

/-- `add`, sub-op 000 (R171). -/
def execAddImmRm (_sx : Bool) (w : Width) (rm : RmField) (imm : ImmField) (s : State) :
    Host.Outcome State Fault Refusal := execArithImmRm .add w rm imm s

/-- `sub`, sub-op 101 (R172). -/
def execSubImmRm (_sx : Bool) (w : Width) (rm : RmField) (imm : ImmField) (s : State) :
    Host.Outcome State Fault Refusal := execArithImmRm .sub w rm imm s

/-- `cmp`, sub-op 111 (R173). -/
def execCmpImmRm (_sx : Bool) (w : Width) (rm : RmField) (imm : ImmField) (s : State) :
    Host.Outcome State Fault Refusal := execArithImmRm .cmp w rm imm s

end Sys2Proof.Machine
end

