-- ==== Sys2Proof/Machine/ImmAcc.lean ====
section
/-! DEFINITION. Family IMM_ACC (spec/45_imm_acc.md): immediate to the accumulator. -/

namespace Sys2Proof.Machine

/-- `DecodeImmAcc(op, b, pc)` and the end of its step (R180). -/
def execImmAcc (op : Op) (w : Width) (imm : ImmField) (s : State) :
    Host.Outcome State Fault Refusal :=
  .next (retire (recordImmReg op w 0#3 imm) (1 + imm.immLen) s)

/-- `add`, variant ADD_IMM_ACC (R181). -/
def execAddImmAcc (w : Width) (imm : ImmField) (s : State) : Host.Outcome State Fault Refusal :=
  execImmAcc .add w imm s

/-- `sub`, variant SUB_IMM_ACC (R182). -/
def execSubImmAcc (w : Width) (imm : ImmField) (s : State) : Host.Outcome State Fault Refusal :=
  execImmAcc .sub w imm s

/-- `cmp`, variant CMP_IMM_ACC (R183). -/
def execCmpImmAcc (w : Width) (imm : ImmField) (s : State) : Host.Outcome State Fault Refusal :=
  execImmAcc .cmp w imm s

end Sys2Proof.Machine
end

