-- ==== Sys2Proof/Machine/Jcc.lean ====
section
/-! DEFINITION. Family JCC (spec/42_jcc.md): each jump prints its mnemonic and its signed displacement
and goes on at the next instruction; it evaluates no condition and follows no jump (R140). -/

namespace Sys2Proof.Machine

/-- `DecodeJcc(cond, pc)` and the end of its step (R140). -/
def execJcc (c : Cond) (disp : Byte) (s : State) : Host.Outcome State Fault Refusal :=
  .next (retire (.jcc c disp) 2 s)

/-- `je` (R141). -/
def execJe (disp : Byte) (s : State) : Host.Outcome State Fault Refusal := execJcc .e disp s

/-- `jl` (R142). -/
def execJl (disp : Byte) (s : State) : Host.Outcome State Fault Refusal := execJcc .l disp s

/-- `jle` (R143). -/
def execJle (disp : Byte) (s : State) : Host.Outcome State Fault Refusal := execJcc .le disp s

/-- `jb` (R144). -/
def execJb (disp : Byte) (s : State) : Host.Outcome State Fault Refusal := execJcc .b disp s

/-- `jbe` (R145). -/
def execJbe (disp : Byte) (s : State) : Host.Outcome State Fault Refusal := execJcc .be disp s

/-- `jpe` (R146). -/
def execJpe (disp : Byte) (s : State) : Host.Outcome State Fault Refusal := execJcc .pe disp s

/-- `jo` (R147). -/
def execJo (disp : Byte) (s : State) : Host.Outcome State Fault Refusal := execJcc .o disp s

/-- `js` (R148). -/
def execJs (disp : Byte) (s : State) : Host.Outcome State Fault Refusal := execJcc .s disp s

/-- `jnz` (R149). -/
def execJnz (disp : Byte) (s : State) : Host.Outcome State Fault Refusal := execJcc .nz disp s

/-- `jge` (R150). -/
def execJge (disp : Byte) (s : State) : Host.Outcome State Fault Refusal := execJcc .ge disp s

/-- `jg` (R151). -/
def execJg (disp : Byte) (s : State) : Host.Outcome State Fault Refusal := execJcc .g disp s

/-- `jae` (R152). -/
def execJae (disp : Byte) (s : State) : Host.Outcome State Fault Refusal := execJcc .ae disp s

/-- `ja` (R153). -/
def execJa (disp : Byte) (s : State) : Host.Outcome State Fault Refusal := execJcc .a disp s

/-- `jpo` (R154). -/
def execJpo (disp : Byte) (s : State) : Host.Outcome State Fault Refusal := execJcc .po disp s

/-- `jno` (R155). -/
def execJno (disp : Byte) (s : State) : Host.Outcome State Fault Refusal := execJcc .no disp s

end Sys2Proof.Machine
end

