-- ==== Sys2Proof/Machine/MovImm.lean ====
section
/-! DEFINITION. Families MOV_IMM_REG (spec/46_mov_imm_reg.md) and MOV_IMM_RM
(spec/47_mov_imm_rm.md). -/

namespace Sys2Proof.Machine

/-- `mov` immediate to register, no keyword (R190). -/
def execMovImmReg (w : Width) (reg : BitVec 3) (imm : ImmField) (s : State) :
    Host.Outcome State Fault Refusal :=
  .next (retire (recordImmReg .mov w reg imm) (1 + imm.immLen) s)

/-- `mov` immediate to register-or-memory, with keyword; the middle field is ignored (R195). -/
def execMovImmRm (w : Width) (_xxx : BitVec 3) (rm : RmField) (imm : ImmField) (s : State) :
    Host.Outcome State Fault Refusal :=
  .next (retire (recordImmRm .mov w rm imm) (2 + rm.dispLen + imm.immLen) s)

end Sys2Proof.Machine
end

