-- ==== Sys2Proof/Machine/MovMemAcc.lean ====
section
/-! DEFINITION. Family MOV_MEM_ACC (spec/48_mov_mem_acc.md): the direction is in the opcode, the
address is always two bytes (R200). -/

namespace Sys2Proof.Machine

/-- `mov` memory to accumulator (R201). -/
def execMovMemToAcc (w : Width) (addr : Word16) (s : State) : Host.Outcome State Fault Refusal :=
  .next (retire (.two .mov w (accumulator w) (.memDir addr)) 3 s)

/-- `mov` accumulator to memory (R202). -/
def execMovAccToMem (w : Width) (addr : Word16) (s : State) : Host.Outcome State Fault Refusal :=
  .next (retire (.two .mov w (.memDir addr) (accumulator w)) 3 s)

end Sys2Proof.Machine
end

