-- ==== Sys2Proof/Machine/RmReg.lean ====
section
/-! DEFINITION. Family RM_REG (spec/43_rm_reg.md): register-or-memory with register. -/

namespace Sys2Proof.Machine

/-- `DecodeRmReg(op, b, pc)` and the end of its step (R160). -/
def execRmReg (op : Op) (d : Bool) (w : Width) (reg : BitVec 3) (rm : RmField) (s : State) :
    Host.Outcome State Fault Refusal :=
  .next (retire (recordRmReg op d w reg rm) (2 + rm.dispLen) s)

/-- `mov`, variant MOV_RM_REG (R161). -/
def execMovRmReg (d : Bool) (w : Width) (reg : BitVec 3) (rm : RmField) (s : State) :
    Host.Outcome State Fault Refusal := execRmReg .mov d w reg rm s

/-- `add`, variant ADD_RM_REG (R162). -/
def execAddRmReg (d : Bool) (w : Width) (reg : BitVec 3) (rm : RmField) (s : State) :
    Host.Outcome State Fault Refusal := execRmReg .add d w reg rm s

/-- `sub`, variant SUB_RM_REG (R163). -/
def execSubRmReg (d : Bool) (w : Width) (reg : BitVec 3) (rm : RmField) (s : State) :
    Host.Outcome State Fault Refusal := execRmReg .sub d w reg rm s

/-- `cmp`, variant CMP_RM_REG (R164). -/
def execCmpRmReg (d : Bool) (w : Width) (reg : BitVec 3) (rm : RmField) (s : State) :
    Host.Outcome State Fault Refusal := execRmReg .cmp d w reg rm s

end Sys2Proof.Machine
end

