-- ==== Sys2Proof/Machine/Dispatch.lean ====
section
/-! DEFINITION. One arm per instruction, each one direct call of its meaning
(spec/40_classifier.md R94). -/

namespace Sys2Proof.Machine

def exec (i : Instr) (s : State) : Host.Outcome State Fault Refusal :=
  match i with
  | .je disp => Sys2Proof.Machine.execJe disp s
  | .jl disp => Sys2Proof.Machine.execJl disp s
  | .jle disp => Sys2Proof.Machine.execJle disp s
  | .jb disp => Sys2Proof.Machine.execJb disp s
  | .jbe disp => Sys2Proof.Machine.execJbe disp s
  | .jpe disp => Sys2Proof.Machine.execJpe disp s
  | .jo disp => Sys2Proof.Machine.execJo disp s
  | .js disp => Sys2Proof.Machine.execJs disp s
  | .jnz disp => Sys2Proof.Machine.execJnz disp s
  | .jge disp => Sys2Proof.Machine.execJge disp s
  | .jg disp => Sys2Proof.Machine.execJg disp s
  | .jae disp => Sys2Proof.Machine.execJae disp s
  | .ja disp => Sys2Proof.Machine.execJa disp s
  | .jpo disp => Sys2Proof.Machine.execJpo disp s
  | .jno disp => Sys2Proof.Machine.execJno disp s
  | .movRmReg d w reg rm => Sys2Proof.Machine.execMovRmReg d w reg rm s
  | .addRmReg d w reg rm => Sys2Proof.Machine.execAddRmReg d w reg rm s
  | .subRmReg d w reg rm => Sys2Proof.Machine.execSubRmReg d w reg rm s
  | .cmpRmReg d w reg rm => Sys2Proof.Machine.execCmpRmReg d w reg rm s
  | .addImmRm sx w rm imm => Sys2Proof.Machine.execAddImmRm sx w rm imm s
  | .subImmRm sx w rm imm => Sys2Proof.Machine.execSubImmRm sx w rm imm s
  | .cmpImmRm sx w rm imm => Sys2Proof.Machine.execCmpImmRm sx w rm imm s
  | .addImmAcc w imm => Sys2Proof.Machine.execAddImmAcc w imm s
  | .subImmAcc w imm => Sys2Proof.Machine.execSubImmAcc w imm s
  | .cmpImmAcc w imm => Sys2Proof.Machine.execCmpImmAcc w imm s
  | .movImmReg w reg imm => Sys2Proof.Machine.execMovImmReg w reg imm s
  | .movImmRm w xxx rm imm => Sys2Proof.Machine.execMovImmRm w xxx rm imm s
  | .movMemToAcc w addr => Sys2Proof.Machine.execMovMemToAcc w addr s
  | .movAccToMem w addr => Sys2Proof.Machine.execMovAccToMem w addr s

end Sys2Proof.Machine
end

