-- ==== Sys2Proof/Machine/Run.lean ====
section
/-! DEFINITION. What a step in `RUN` does with what the decoder found
(spec/40_classifier.md R92, R94, R95; spec/60_exceptions.md R215). -/

namespace Sys2Proof.Machine

/-- A whole instruction runs; an unrecognised byte skips one byte (R95); an undefined sub-op skips by
`SUBOP_POLICY` (R174); a missing byte raises `OutOfBounds` (R211). -/
def runDecoded (d : Decoded) (s : State) : Host.Outcome State Fault Refusal :=
  match d with
  | .instr i => exec i s
  | .unrecognised => .next (skip 1 s)
  | .undefinedSubOp => .next (skip subopSkip s)
  | .truncated => .next (raiseOutOfBounds s)

/-- Fetch, classify, decode, execute (R92, below its gate). -/
def runStep (s : State) : Host.Outcome State Fault Refusal := runDecoded (decode (fetch s)) s

end Sys2Proof.Machine
end

