-- ==== Sys2Proof/Machine/Step.lean ====
section
/-! DEFINITION. The step of DEC (spec/40_classifier.md R90 to R92). -/

namespace Sys2Proof.Machine

/-- `Step` (R92): acts in `RUN` only, and is idle in a terminal status (R91). -/
def step (s : State) : Host.Outcome State Fault Refusal :=
  match s.status with
  | .run => runStep s
  | .done => .next s
  | .faultOob => .next s

/-- The state in which the next step fetches and runs the instruction of an opcode-table word: its
bytes at the cursor, `LEN` covering them, `STATUS = RUN` (log 3). -/
def State.withFetchWord (s : State) (nbits w : Nat) : State :=
  placeAtCursor (tableBytes nbits w) s

end Sys2Proof.Machine
end

