-- ==== Sys2Proof/Machine/RuleStep.lean ====
section
/-! DEFINITION. A second reading of the step: the pseudocode of spec/40_classifier.md R92, R93 and of
the decoders it calls (R105, R110, R119, R140, R160, R170, R180, R190, R195, R200), transcribed read by
read over `MemRead`, with no instruction in between. The machine's own step goes through the decoder
and `exec`; an obligation states that the two agree on every state. -/

namespace Sys2Proof.Machine

/-- What a decoder returns: `Decoded(instr, L)` or `Skip` (R92). -/
inductive RuleResult
  | decoded (r : Record) (length : Nat)
  | skip
  deriving DecidableEq, Repr

/-- `JCCROM[b].cond` (R64). -/
def ruleJcc (b : Byte) : Option Cond :=
  if b = 0x74#8 then some .e
  else if b = 0x7C#8 then some .l
  else if b = 0x7E#8 then some .le
  else if b = 0x72#8 then some .b
  else if b = 0x76#8 then some .be
  else if b = 0x7A#8 then some .pe
  else if b = 0x70#8 then some .o
  else if b = 0x78#8 then some .s
  else if b = 0x75#8 then some .nz
  else if b = 0x7D#8 then some .ge
  else if b = 0x7F#8 then some .g
  else if b = 0x73#8 then some .ae
  else if b = 0x77#8 then some .a
  else if b = 0x7B#8 then some .po
  else if b = 0x71#8 then some .no
  else none

/-- Step 2 of `Classify`: the width-7 rows of CLASSROM (R63, R93). -/
def ruleP7 (p7 : BitVec 7) : Option Variant :=
  if p7 = 0b1010000#7 then some .movMemToAcc
  else if p7 = 0b1010001#7 then some .movAccToMem
  else if p7 = 0b1100011#7 then some .movImmRm
  else if p7 = 0b0000010#7 then some .addImmAcc
  else if p7 = 0b0010110#7 then some .subImmAcc
  else if p7 = 0b0011110#7 then some .cmpImmAcc
  else none

/-- Step 3 of `Classify`: the width-6 rows of CLASSROM (R63, R93). -/
def ruleP6 (p6 : BitVec 6) : Option Variant :=
  if p6 = 0b100010#6 then some .movRmReg
  else if p6 = 0b000000#6 then some .addRmReg
  else if p6 = 0b001010#6 then some .subRmReg
  else if p6 = 0b001110#6 then some .cmpRmReg
  else if p6 = 0b100000#6 then some .arithImmRm
  else none

/-- `Classify(b)`, step by step (R93). -/
def ruleClassify (b : Byte) : Option Variant :=
  match ruleJcc b with
  | some c => some (.jcc c)
  | none =>
    match ruleP7 (b.extractLsb' 1 7) with
    | some v => some v
    | none =>
      match ruleP6 (b.extractLsb' 2 6) with
      | some v => some v
      | none => if b.extractLsb' 4 4 = 0b1011#4 then some .movImmReg else none

/-- `Mrm(a)` (R105). -/
def ruleMrm (s : State) (a : Nat) : Except Fault (BitVec 2 × BitVec 3 × BitVec 3) := do
  let m ← memRead1 s a
  return (m.extractLsb' 6 2, m.extractLsb' 3 3, m.extractLsb' 0 3)

/-- `RmOperand(mod, rm, w, a)` (R110). -/
def ruleRmOperand (s : State) (mod : BitVec 2) (rm : BitVec 3) (w : Width) (a : Nat) :
    Except Fault (Operand × Nat) :=
  if mod = 0b11#2 then return (.reg w rm, 0)
  else if mod = 0b00#2 then
    if rm = 0b110#3 then do
      let v ← memRead2 s a
      return (.memDir v, 2)
    else return (.memEA rm .d0 0, 0)
  else if mod = 0b01#2 then do
    let v ← memRead1 s a
    return (.memEA rm .d8 v.toInt, 1)
  else do
    let v ← memRead2 s a
    return (.memEA rm .d16 v.toInt, 2)

/-- `ReadImm(a, n)` (R119), with the keyword the family sets. -/
def ruleReadImm (s : State) (a n : Nat) (kw : Kw) : Except Fault Operand :=
  if n = 1 then do
    let v ← memRead1 s a
    return .imm (.imm8 v) kw
  else do
    let v ← memRead2 s a
    return .imm (.imm16 v) kw

/-- `w` from a flag bit (R16). -/
def ruleWidth (bit : Bool) : Width := if bit then .word else .byte

/-- `DecodeJcc(cond, pc)` (R140). -/
def ruleDecodeJcc (s : State) (c : Cond) (pc : Nat) : Except Fault RuleResult := do
  let v ← memRead1 s (pc + 1)
  return .decoded (.jcc c v) 2

/-- `DecodeRmReg(op, b, pc)` (R160). -/
def ruleDecodeRmReg (s : State) (op : Op) (b : Byte) (pc : Nat) : Except Fault RuleResult := do
  let w := ruleWidth (bitOf b 0)
  let (mod, reg, rm) ← ruleMrm s (pc + 1)
  let (m, k) ← ruleRmOperand s mod rm w (pc + 2)
  let r := Operand.reg w reg
  if bitOf b 1 then return .decoded (.two op w r m) (2 + k)
  else return .decoded (.two op w m r) (2 + k)

/-- The sub-op's operation: "000 -> Add | 101 -> Sub | 111 -> Cmp", else none (R170). -/
def ruleSubOp (op3 : BitVec 3) : Option Op :=
  if op3 = 0b000#3 then some .add
  else if op3 = 0b101#3 then some .sub
  else if op3 = 0b111#3 then some .cmp
  else none

/-- `DecodeArithImmRm(b, pc)` (R170). -/
def ruleDecodeArithImmRm (s : State) (b : Byte) (pc : Nat) : Except Fault RuleResult := do
  let w := ruleWidth (bitOf b 0)
  let (mod, op3, rm) ← ruleMrm s (pc + 1)
  match ruleSubOp op3 with
  | none => return .skip
  | some op => do
    let (m, k) ← ruleRmOperand s mod rm w (pc + 2)
    let n := if bitOf b 0 && !bitOf b 1 then 2 else 1
    let i ← ruleReadImm s (pc + 2 + k) n (if n = 1 then .byte else .word)
    return .decoded (.two op w m i) (2 + k + n)

/-- `DecodeImmAcc(op, b, pc)` (R180). -/
def ruleDecodeImmAcc (s : State) (op : Op) (b : Byte) (pc : Nat) : Except Fault RuleResult := do
  let w := ruleWidth (bitOf b 0)
  let n := if bitOf b 0 then 2 else 1
  let i ← ruleReadImm s (pc + 1) n .none
  return .decoded (.two op w (.reg w 0b000#3) i) (1 + n)

/-- `DecodeMovImmReg(b, pc)` (R190). -/
def ruleDecodeMovImmReg (s : State) (b : Byte) (pc : Nat) : Except Fault RuleResult := do
  let w := ruleWidth (bitOf b 3)
  let n := if bitOf b 3 then 2 else 1
  let i ← ruleReadImm s (pc + 1) n .none
  return .decoded (.two .mov w (.reg w (b.extractLsb' 0 3)) i) (1 + n)

/-- `DecodeMovImmRm(b, pc)` (R195). -/
def ruleDecodeMovImmRm (s : State) (b : Byte) (pc : Nat) : Except Fault RuleResult := do
  let w := ruleWidth (bitOf b 0)
  let (mod, _, rm) ← ruleMrm s (pc + 1)
  let (m, k) ← ruleRmOperand s mod rm w (pc + 2)
  let n := if bitOf b 0 then 2 else 1
  let i ← ruleReadImm s (pc + 2 + k) n (if n = 1 then .byte else .word)
  return .decoded (.two .mov w m i) (2 + k + n)

/-- `DecodeMovMemAcc(dir, b, pc)` (R200); `toAcc` is `dir = toAcc`. -/
def ruleDecodeMovMemAcc (s : State) (toAcc : Bool) (b : Byte) (pc : Nat) :
    Except Fault RuleResult := do
  let w := ruleWidth (bitOf b 0)
  let v ← memRead2 s (pc + 1)
  let a := Operand.reg w 0b000#3
  if toAcc then return .decoded (.two .mov w a (.memDir v)) 3
  else return .decoded (.two .mov w (.memDir v) a) 3

/-- The body of `Step` up to `r` (R92). -/
def ruleResult (s : State) : Except Fault RuleResult := do
  let b ← memRead1 s s.pc
  match ruleClassify b with
  | none => return .skip
  | some (.jcc c) => ruleDecodeJcc s c s.pc
  | some .movRmReg => ruleDecodeRmReg s .mov b s.pc
  | some .addRmReg => ruleDecodeRmReg s .add b s.pc
  | some .subRmReg => ruleDecodeRmReg s .sub b s.pc
  | some .cmpRmReg => ruleDecodeRmReg s .cmp b s.pc
  | some .arithImmRm => ruleDecodeArithImmRm s b s.pc
  | some .addImmAcc => ruleDecodeImmAcc s .add b s.pc
  | some .subImmAcc => ruleDecodeImmAcc s .sub b s.pc
  | some .cmpImmAcc => ruleDecodeImmAcc s .cmp b s.pc
  | some .movImmReg => ruleDecodeMovImmReg s b s.pc
  | some .movImmRm => ruleDecodeMovImmRm s b s.pc
  | some .movMemToAcc => ruleDecodeMovMemAcc s true b s.pc
  | some .movAccToMem => ruleDecodeMovMemAcc s false b s.pc

/-- `if pc = LEN then STATUS <- DONE` (R92, R96). -/
def ruleEnd (s : State) : State := if s.pc = s.len then { s with status := .done } else s

/-- `Step()` in full (R92). -/
def ruleStep (s : State) : State :=
  if s.status ≠ .run then s
  else
    match ruleResult s with
    | .ok (.decoded r n) => ruleEnd { s with out := s.out ++ [render r], pc := s.pc + n }
    | .ok .skip => ruleEnd { s with pc := s.pc + 1 }
    | .error .outOfBounds => { s with status := .faultOob, faultAt := s.pc }

end Sys2Proof.Machine
end

