-- ==== Sys2Proof/Safety/Grammar.lean ====
section
/-! DEFINITION. The grammar of the output lines (spec/30_encoding.md R75), and the number a decimal
numeral denotes: the terms in which claims say what a well-formed line is. -/

namespace Sys2Proof.Safety

open Sys2Proof.Machine

/-- A digit `0` to `9`. -/
def IsDigit (c : Char) : Prop := c ∈ "0123456789".toList

/-- `posnat`: a nonzero digit followed by zero or more digits. -/
def IsPosNat (l : Line) : Prop :=
  ∃ c rest, l = c :: rest ∧ IsDigit c ∧ c ≠ '0' ∧ ∀ x ∈ rest, IsDigit x

/-- `nat`: `"0"` or a `posnat`. -/
def IsNat (l : Line) : Prop := l = "0".toList ∨ IsPosNat l

/-- `int`: a `nat`, or `"-"` and a `posnat`. -/
def IsInt (l : Line) : Prop := IsNat l ∨ ∃ p, IsPosNat p ∧ l = "-".toList ++ p

/-- `regname`: one of the 16 names of REGROM (R108). -/
def IsRegName (l : Line) : Prop :=
  l ∈ ["al".toList, "cl".toList, "dl".toList, "bl".toList, "ah".toList, "ch".toList, "dh".toList,
    "bh".toList, "ax".toList, "cx".toList, "dx".toList, "bx".toList, "sp".toList, "bp".toList,
    "si".toList, "di".toList]

/-- `base`: one of the 8 strings of EAROM (R112). -/
def IsBase (l : Line) : Prop :=
  l ∈ ["bx + si".toList, "bx + di".toList, "bp + si".toList, "bp + di".toList, "si".toList,
    "di".toList, "bp".toList, "bx".toList]

/-- `mem`: `"[" base "]"`, `"[" base " + " int "]"` or `"[" nat "]"`. -/
def IsMem (l : Line) : Prop :=
  (∃ b, IsBase b ∧ l = "[".toList ++ b ++ "]".toList) ∨
  (∃ b n, IsBase b ∧ IsInt n ∧ l = "[".toList ++ b ++ " + ".toList ++ n ++ "]".toList) ∨
  (∃ n, IsNat n ∧ l = "[".toList ++ n ++ "]".toList)

/-- `imm`: `int`, or `"byte"` or `"word"`, a space and an `int`. -/
def IsImm (l : Line) : Prop :=
  IsInt l ∨ ∃ kw n, kw ∈ ["byte".toList, "word".toList] ∧ IsInt n ∧ l = kw ++ " ".toList ++ n

/-- `operand` -/
def IsOperand (l : Line) : Prop := IsRegName l ∨ IsMem l ∨ IsImm l

/-- `two`: mnemonic, space, destination, comma and space, source. -/
def IsTwo (l : Line) : Prop :=
  ∃ m a b, m ∈ ["mov".toList, "add".toList, "sub".toList, "cmp".toList] ∧ IsOperand a ∧
    IsOperand b ∧ l = m ++ " ".toList ++ a ++ ", ".toList ++ b

/-- `jump`: mnemonic, space, signed displacement. -/
def IsJump (l : Line) : Prop :=
  ∃ m n, m ∈ ["je".toList, "jl".toList, "jle".toList, "jb".toList, "jbe".toList, "jpe".toList,
      "jo".toList, "js".toList, "jnz".toList, "jge".toList, "jg".toList, "jae".toList, "ja".toList,
      "jpo".toList, "jno".toList] ∧ IsInt n ∧ l = m ++ " ".toList ++ n

/-- `line` (R75). -/
def IsLine (l : Line) : Prop := IsTwo l ∨ IsJump l

/-- The value of a sequence of decimal digits, most significant first. -/
def natValue (l : Line) : Nat := l.foldl (fun n c => 10 * n + (c.toNat - 48)) 0

/-- The integer a numeral denotes: a leading `-` negates. -/
def intValue : Line → Int
  | '-' :: l => -(natValue l : Int)
  | l => natValue l

end Sys2Proof.Safety
end

