-- ==== Sys2Proof/Safety.lean ====
section
/-! DEFINITION. What a sound state of a pass is, and what the four outcomes of a step are, in the
terms claims use (spec/10_state.md R21 to R25; spec/40_classifier.md R90, R97, R100). -/

namespace Sys2Proof.Safety

open Sys2Proof.Machine

/-- The image is in canonical form and lists no offset at or beyond `LEN` (R40, log 1). -/
abbrev ImageWf (s : State) : Prop := Memory.wf s.img = true ∧ Memory.below s.len s.img = true

/-- What `STATUS` says of the cursor (R23). -/
abbrev StatusAgrees (s : State) : Prop :=
  (s.status = .run → s.pc < s.len) ∧
  (s.status = .done → s.pc = s.len) ∧
  (s.status = .faultOob → s.pc = s.faultAt ∧ s.faultAt < s.len)

/-- The invariant of a pass: the image is well formed, `0 <= pc <= LEN` (R21), `STATUS` agrees with the
cursor (R23), and every emitted line took at least two bytes (R100). -/
abbrev PassInv (s : State) : Prop :=
  ImageWf s ∧ s.pc ≤ s.len ∧ StatusAgrees s ∧ 2 * s.out.length ≤ s.pc

/-- Every line in `OUT` matches the grammar (R75). -/
def LinesWf (s : State) : Prop := ∀ l ∈ s.out, IsLine l

/-- The state a decoded step of `n` bytes leaves (R90, R92): one line more, the cursor past the
instruction, `DONE` exactly when it reached `LEN`; nothing else changes. -/
def decodedTo (line : Line) (n : Nat) (s : State) : State :=
  { s with
    out := s.out ++ [line]
    pc := s.pc + n
    status := if s.pc + n = s.len then .done else s.status }

/-- The state a skipped step leaves (R90, R95). -/
def skippedTo (s : State) : State :=
  { s with pc := s.pc + 1, status := if s.pc + 1 = s.len then .done else s.status }

/-- The state a faulted step leaves (R90, R211). -/
def faultedTo (s : State) : State := { s with status := .faultOob, faultAt := s.pc }

end Sys2Proof.Safety
end

