-- ==== Sys2Proof/Certificates/Slice0/Obligations.lean ====
section
/-! DEFINITION. The statements for the provers. Each docstring names the rule of spec/ it formalises,
or says that it rests on a decision, an inference or general knowledge the spec marks as such, or on a
choice of the model, and names the log entry. -/

namespace Sys2Proof.Claims

open Sys2Proof.Machine

/-! ### The words of the rules, over the raw bytes at the cursor -/

/-- `IMG[pc + k]`. -/
def byteAfter (s : State) (k : Nat) : Byte := byteAt s (s.pc + k)

/-- The 16-bit value at `pc + k`, low byte first (R42). -/
def wordAfter (s : State) (k : Nat) : Word16 := le16 (byteAfter s k) (byteAfter s (k + 1))

/-- A step that acts, on a leading byte CLASS gives the variant `v`. -/
def Leads (s : State) (v : Variant) : Prop :=
  s.status = .run ∧ s.pc < s.len ∧ classify (byteAfter s 0) = some v

/-- The size flag in bit `k` of the leading byte. -/
def sizeBit (s : State) (k : Nat) : Width := if bitOf (byteAfter s 0) k then .word else .byte

/-- The three fields of the mod-reg-rm byte (R62). -/
def modField (s : State) : BitVec 2 := (byteAfter s 1).extractLsb' 6 2
def regField (s : State) : BitVec 3 := (byteAfter s 1).extractLsb' 3 3
def rmFieldBits (s : State) : BitVec 3 := (byteAfter s 1).extractLsb' 0 3

/-- `DispLen(mod, rm)`, the table of R68. -/
def dispLenOf (mod : BitVec 2) (rm : BitVec 3) : Nat :=
  if mod = 0b00#2 then (if rm = 0b110#3 then 2 else 0)
  else if mod = 0b01#2 then 1
  else if mod = 0b10#2 then 2
  else 0

/-- `k = DispLen(mod, rm)` of the bytes at the cursor. -/
def dispBytes (s : State) : Nat := dispLenOf (modField s) (rmFieldBits s)

/-- The register-or-memory operand of the bytes at the cursor (R110): `mod`, `rm` and what follows. -/
def rmOf (s : State) (w : Width) : Operand :=
  if modField s = 0b11#2 then .reg w (rmFieldBits s)
  else if modField s = 0b01#2 then .memEA (rmFieldBits s) .d8 (byteAfter s 2).toInt
  else if modField s = 0b10#2 then .memEA (rmFieldBits s) .d16 (wordAfter s 2).toInt
  else if rmFieldBits s = 0b110#3 then .memDir (wordAfter s 2)
  else .memEA (rmFieldBits s) .d0 0

/-- `mnemonic dst, src` with the operands' texts given. -/
def twoLine (mnemonic : String) (dst src : Line) : Line :=
  mnemonic.toList ++ " ".toList ++ dst ++ ", ".toList ++ src

/-- The text of an immediate of `n` bytes at `pc + k`: one byte signed, two bytes unsigned (R120). -/
def immText (s : State) (k n : Nat) : Line :=
  if n = 1 then dec (byteAfter s k).toInt else dec (wordAfter s k).toNat

/-- The keyword of an immediate of `n` bytes, before it (R122). -/
def kwImmText (s : State) (k n : Nat) : Line :=
  (if n = 1 then "byte ".toList else "word ".toList) ++ immText s k n

/-- The bytes up to `n` are there and the step appends `line`, or one is missing and it faults. -/
def DecodesTo (s : State) (n : Nat) (line : Line) : Prop :=
  (s.len < s.pc + n → step s = .next (Safety.faultedTo s)) ∧
  (s.pc + n ≤ s.len → step s = .next (Safety.decodedTo line n s))

/-- Rule R160 for one operation. -/
def RmRegRule (v : Variant) (mnemonic : String) : Prop :=
  ∀ s, Leads s v →
    (s.len < s.pc + 2 → step s = .next (Safety.faultedTo s)) ∧
    (s.pc + 2 ≤ s.len →
      DecodesTo s (2 + dispBytes s)
        (if bitOf (byteAfter s 0) 1 then
          twoLine mnemonic (regName (sizeBit s 0) (regField s))
            (renderOperand (rmOf s (sizeBit s 0)))
        else
          twoLine mnemonic (renderOperand (rmOf s (sizeBit s 0)))
            (regName (sizeBit s 0) (regField s))))

/-- Rule R170 for one defined sub-op. -/
def ArithImmRule (op3 : BitVec 3) (mnemonic : String) : Prop :=
  ∀ s, Leads s .arithImmRm → s.pc + 2 ≤ s.len → regField s = op3 →
    let n := if bitOf (byteAfter s 0) 0 && !bitOf (byteAfter s 0) 1 then 2 else 1
    DecodesTo s (2 + dispBytes s + n)
      (twoLine mnemonic (renderOperand (rmOf s (sizeBit s 0))) (kwImmText s (2 + dispBytes s) n))

/-- Rule R180 for one operation. -/
def ImmAccRule (v : Variant) (mnemonic : String) : Prop :=
  ∀ s, Leads s v →
    DecodesTo s (if bitOf (byteAfter s 0) 0 then 3 else 2)
      (twoLine mnemonic (if bitOf (byteAfter s 0) 0 then "ax".toList else "al".toList)
        (immText s 1 (if bitOf (byteAfter s 0) 0 then 2 else 1)))

/-- The jumps: opcode byte, condition and mnemonic, in the order of R64. -/
def jumpTable : List (Byte × Cond × String) :=
  [(0x74#8, .e, "je"), (0x7C#8, .l, "jl"), (0x7E#8, .le, "jle"), (0x72#8, .b, "jb"),
   (0x76#8, .be, "jbe"), (0x7A#8, .pe, "jpe"), (0x70#8, .o, "jo"), (0x78#8, .s, "js"),
   (0x75#8, .nz, "jnz"), (0x7D#8, .ge, "jge"), (0x7F#8, .g, "jg"), (0x73#8, .ae, "jae"),
   (0x77#8, .a, "ja"), (0x7B#8, .po, "jpo"), (0x71#8, .no, "jno")]

/-- The table of R212: the bytes the step needs and does not find. -/
def Missing (s : State) : Prop :=
  match classify (byteAfter s 0) with
  | none => False
  | some (.jcc _) => s.len < s.pc + 2
  | some .addImmAcc | some .subImmAcc | some .cmpImmAcc =>
      s.len < s.pc + 1 + (if bitOf (byteAfter s 0) 0 then 2 else 1)
  | some .movImmReg => s.len < s.pc + 1 + (if bitOf (byteAfter s 0) 3 then 2 else 1)
  | some .movMemToAcc | some .movAccToMem => s.len < s.pc + 3
  | some .movRmReg | some .addRmReg | some .subRmReg | some .cmpRmReg =>
      s.len < s.pc + 2 ∨ s.len < s.pc + 2 + dispBytes s
  | some .movImmRm =>
      s.len < s.pc + 2 ∨
      s.len < s.pc + 2 + dispBytes s + (if bitOf (byteAfter s 0) 0 then 2 else 1)
  | some .arithImmRm =>
      s.len < s.pc + 2 ∨
      (regField s ∈ [0b000#3, 0b101#3, 0b111#3] ∧
        s.len < s.pc + 2 + dispBytes s +
          (if bitOf (byteAfter s 0) 0 && !bitOf (byteAfter s 0) 1 then 2 else 1))

/-- The four outcomes of R90 between a state and the next. -/
def IsIdle (s t : State) : Prop := s.status ≠ .run ∧ t = s
def IsDecoded (s t : State) : Prop :=
  s.status = .run ∧ ∃ i line, decode (fetch s) = .instr i ∧ 2 ≤ i.length ∧
    s.pc + i.length ≤ s.len ∧ t = Safety.decodedTo line i.length s
def IsSkipped (s t : State) : Prop := s.status = .run ∧ t = Safety.skippedTo s
def IsFaulted (s t : State) : Prop := s.status = .run ∧ t = Safety.faultedTo s

end Sys2Proof.Claims

open Sys2Proof Sys2Proof.Machine Sys2Proof.Safety Sys2Proof.Claims

/-! ### Reset and the host -/

/-- Reset over the empty image (R33, R241; the spec's decision D2 and log 3): cursor at 0, no line,
`DONE` because `LEN = 0`, nothing listed in the image. Nothing is said of `FAULT_AT` (log 2). -/
def Obligations.ResetOverEmptyImage : Prop :=
  State.reset.pc = 0 ∧ State.reset.out = [] ∧ State.reset.len = 0 ∧ State.reset.img = [] ∧
  State.reset.status = .done

/-- A pass the host starts (R33, R240, R244; decision D2): from any terminal status, the reset values
over exactly the supplied image. Nothing is said of `FAULT_AT` (log 2). -/
def Obligations.StartPassLeavesResetValues : Prop :=
  ∀ (bytes : List Byte) (s : State), s.status ≠ .run →
    ∃ t, startPass bytes s = some t ∧ t.pc = 0 ∧ t.out = [] ∧ t.len = bytes.length ∧
      (t.status = if bytes.length = 0 then .done else .run) ∧
      (∀ k (h : k < bytes.length), byteAt t k = bytes[k]) ∧ PassInv t

/-- Resetting without a new image keeps the image and its length (R240), and the host has no move at
all in `RUN` (R243, R245; decision D1, log 18). -/
def Obligations.HostMovesOnlyOutsideRun : Prop :=
  ∀ (bytes : List Byte) (s : State),
    (s.status = .run → supplyImage bytes s = none ∧ assertReset s = none) ∧
    (s.status ≠ .run → ∃ t, assertReset s = some t ∧ t.img = s.img ∧ t.len = s.len ∧ t.pc = 0 ∧
      t.out = [] ∧ (t.status = if s.len = 0 then .done else .run))

/-! ### The image -/

/-- R44 whole: both reads, the bound on the mathematical sum, no partial value. -/
def Obligations.MemReadIsBoundsChecked : Prop :=
  ∀ (s : State) (a : Nat),
    (a + 1 > s.len → memRead1 s a = .error .outOfBounds) ∧
    (a + 1 ≤ s.len → memRead1 s a = .ok (byteAt s a)) ∧
    (a + 2 > s.len → memRead2 s a = .error .outOfBounds) ∧
    (a + 2 ≤ s.len → ∃ v, memRead2 s a = .ok v ∧
      v.toNat = (byteAt s a).toNat + 256 * (byteAt s (a + 1)).toNat)

/-- R43 whole: the value of two bytes, and the bytes back from the value. -/
def Obligations.LittleEndianRoundTrip : Prop :=
  (∀ lo hi : Byte, le16 lo hi = (lo.setWidth 16 ||| (hi.setWidth 16 <<< 8))) ∧
  (∀ (s : State) (a : Nat) (v : Word16), memRead2 s a = .ok v →
    v.toNat = (byteAt s a).toNat + 256 * (byteAt s (a + 1)).toNat ∧
    v.toNat % 256 = (byteAt s a).toNat ∧ v.toNat / 256 = (byteAt s (a + 1)).toNat ∧
    bytes16 v = [byteAt s a, byteAt s (a + 1)])

/-- R41: no instruction and no step writes the image; every byte reads as before. -/
def Obligations.ImageIsReadOnly : Prop :=
  (∀ s t, step s = .next t → t.len = s.len ∧ t.img = s.img ∧ ∀ a, byteAt t a = byteAt s a) ∧
  (∀ i s t, exec i s = .next t → t.len = s.len ∧ t.img = s.img ∧ ∀ a, byteAt t a = byteAt s a)

/-- The model's own representation (log 1): two canonical listings with the same bytes are equal. -/
def Obligations.ImageListingIsCanonical : Prop :=
  ∀ m m' : Memory, Memory.wf m = true → Memory.wf m' = true →
    (∀ a, Memory.read m a = Memory.read m' a) → m = m'

/-! ### Encoding -/

/-- Decode and encode agree on every well-formed instruction, whatever bytes follow (R60 to R70; the
middle field of MOV_IMM_RM is kept by the model, log 13). -/
def Obligations.DecodeOfEncode : Prop :=
  ∀ (i : Instr) (rest : List Byte), i.wf = true → decode (encode i ++ rest) = .instr i

/-- What decodes is well formed, and its encoding is the bytes it was decoded from (R60 to R70). That no
byte of MOV_IMM_RM is lost rests on the model's choice to keep the ignored middle field (log 13); the
spec's own record drops it (decision D21). -/
def Obligations.EncodeOfDecode : Prop :=
  ∀ (bs : List Byte) (i : Instr), decode bs = .instr i →
    i.wf = true ∧ i.length ≤ bs.length ∧ encode i = bs.take i.length

/-- Words written out from the byte scenarios of the source (spec/95_test_vectors.md S1 to S4) and from
the worked examples of R182, R201. -/
def Obligations.WrittenWordsDecode : Prop :=
  decode [0b10001001#8, 0b11011000#8] = .instr (.movRmReg false .word 0b011#3 (.reg 0b000#3)) ∧
  decode [0b10110001#8, 0x0C#8] = .instr (.movImmReg .byte 0b001#3 (.imm8 12#8)) ∧
  decode [0b10000011#8, 0b00000110#8, 0#8, 0#8, 7#8] =
    .instr (.addImmRm true .word (.direct 0#16) (.imm8 7#8)) ∧
  decode [0b01110100#8, 0xFE#8] = .instr (.je 0xFE#8) ∧
  decode [0b00101101#8, 0x00#8, 0x80#8] = .instr (.subImmAcc .word (.imm16 0x8000#16)) ∧
  decode [0b10100000#8, 0x0A#8, 0x00#8] = .instr (.movMemToAcc .byte 10#16) ∧
  decode [0b11000110#8, 0b00000111#8, 7#8] = .instr (.movImmRm .byte 0b000#3 (.base 0b111#3) (.imm8 7#8))

/-- The classifier's table (R63 to R66; most patterns are the spec's general knowledge, GK1 to GK3,
logs 10 and 16; the disjointness and the set are inferences the spec marks): 27 rows, no byte matches
two of them, and the variant of every recognised byte; every other byte has none. -/
def Obligations.ClassifierTable : Prop :=
  classrom.length = 27 ∧
  (∀ b : Byte, (classrom.filter (rowMatches b)).length ≤ 1) ∧
  (∀ b : Byte, classify b =
    match jumpTable.find? (fun p => p.1 == b) with
    | some (_, c, _) => some (.jcc c)
    | none =>
        if b ∈ [0xA0#8, 0xA1#8] then some .movMemToAcc
        else if b ∈ [0xA2#8, 0xA3#8] then some .movAccToMem
        else if b ∈ [0xC6#8, 0xC7#8] then some .movImmRm
        else if b ∈ [0x04#8, 0x05#8] then some .addImmAcc
        else if b ∈ [0x2C#8, 0x2D#8] then some .subImmAcc
        else if b ∈ [0x3C#8, 0x3D#8] then some .cmpImmAcc
        else if b ∈ [0x88#8, 0x89#8, 0x8A#8, 0x8B#8] then some .movRmReg
        else if b ∈ [0x00#8, 0x01#8, 0x02#8, 0x03#8] then some .addRmReg
        else if b ∈ [0x28#8, 0x29#8, 0x2A#8, 0x2B#8] then some .subRmReg
        else if b ∈ [0x38#8, 0x39#8, 0x3A#8, 0x3B#8] then some .cmpRmReg
        else if b ∈ [0x80#8, 0x81#8, 0x82#8, 0x83#8] then some .arithImmRm
        else if 0xB0#8 ≤ b ∧ b ≤ 0xBF#8 then some .movImmReg
        else none)

/-! ### The step -/

/-- The step is the transcription of the rules' own pseudocode (R92, R93 and the decoders they call),
read by read over `MemRead`, on every state. The called decoders carry the spec's decisions D7 to D12,
D15 and D18 (logs 12 to 15), and the tables its general knowledge GK1 to GK6 and decisions D5, D6 and
D14 (logs 10, 11, 16). In `RUN` with `pc` at or beyond `LEN`, which no pass reaches, both take the
exception: an inference of the model (log 8). -/
def Obligations.StepFollowsTheRules : Prop := ∀ s, step s = .next (ruleStep s)

/-- R90 whole: a step answers a next state from every state, by exactly one of the four outcomes. -/
def Obligations.StepHasExactlyOneOfFourOutcomes : Prop :=
  ∀ s, ∃ t, step s = .next t ∧
    ((IsDecoded s t ∧ ¬IsSkipped s t ∧ ¬IsFaulted s t ∧ ¬IsIdle s t) ∨
     (IsSkipped s t ∧ ¬IsDecoded s t ∧ ¬IsFaulted s t ∧ ¬IsIdle s t) ∨
     (IsFaulted s t ∧ ¬IsDecoded s t ∧ ¬IsSkipped s t ∧ ¬IsIdle s t) ∨
     (IsIdle s t ∧ ¬IsDecoded s t ∧ ¬IsSkipped s t ∧ ¬IsFaulted s t))

/-- R91 (an inference the spec marks): the step is idle in a terminal status. -/
def Obligations.TerminalStatusIsIdle : Prop :=
  ∀ s, s.status = .done ∨ s.status = .faultOob → step s = .next s

/-- R94 in the model's words: in `RUN`, when the bytes the step fetches decode to an instruction, the
step is that instruction's execution. -/
def Obligations.StepRunsTheDecodedInstruction : Prop :=
  ∀ s i, s.status = .run → decode (fetch s) = .instr i → step s = exec i s

/-- R94 over the image: in `RUN`, with a well-formed instruction's encoding at the cursor, all of it
inside the image, the step is its execution. -/
def Obligations.EncodedInstructionAtCursorRuns : Prop :=
  ∀ s i, s.status = .run → i.wf = true → s.pc + i.length ≤ s.len →
    (∀ k, k < i.length → (encode i)[k]? = some (byteAt s (s.pc + k))) → step s = exec i s

/-- The model's own operation (log 3): a placed table word is what the next step runs. -/
def Obligations.PlacedTableWordRuns : Prop :=
  ∀ (s : State) (nbits w : Nat) (i : Instr), Memory.wf s.img = true →
    decodeTableWord nbits w = some i →
    step (s.withFetchWord nbits w) = exec i (s.withFetchWord nbits w)

/-- R95 whole: a leading byte no row of CLASSROM matches is skipped, one byte, with no line and no
fault, at the last offset too. -/
def Obligations.UnrecognisedByteIsSkipped : Prop :=
  ∀ s, s.status = .run → s.pc < s.len → (∀ r ∈ classrom, rowMatches (byteAt s s.pc) r = false) →
    step s = .next (skippedTo s)

/-- The end of a pass on an unrecognised byte at the last offset (R98, an inference the spec marks). -/
def Obligations.UnrecognisedLastByteEndsThePass : Prop :=
  ∀ s, s.status = .run → s.pc + 1 = s.len → classify (byteAt s s.pc) = none →
    ∃ t, step s = .next t ∧ t.status = .done ∧ t.pc = s.len ∧ t.out = s.out ∧ t.faultAt = s.faultAt

/-- A recognised byte at the last offset always faults (R98, an inference the spec marks). -/
def Obligations.RecognisedLastByteFaults : Prop :=
  ∀ s v, s.status = .run → s.pc + 1 = s.len → classify (byteAt s s.pc) = some v →
    step s = .next (faultedTo s)

/-! ### The family decoders, over the raw bytes -/

/-- R140 whole, for every condition: the line is the mnemonic and the signed displacement, the cursor
moves two bytes whatever the displacement, and the one exception is the missing byte. -/
def Obligations.JumpDecoderRule : Prop :=
  ∀ c s, Leads s (.jcc c) →
    (s.pc + 1 = s.len → step s = .next (faultedTo s)) ∧
    (s.pc + 1 < s.len → step s = .next
      (decodedTo (jccMnemonic c ++ " ".toList ++ dec (byteAfter s 1).toInt) 2 s)) ∧
    dec (0x00#8).toInt = "0".toList ∧ dec (0x7F#8).toInt = "127".toList ∧
    dec (0x80#8).toInt = "-128".toList ∧ dec (0xFF#8).toInt = "-1".toList

/-- R141 whole, with its rank, its corner cases and its worked example's displacement. -/
def Obligations.JeRule : Prop :=
  classrom[0]? = some ⟨8, 0b01110100, .jcc .e⟩ ∧ dec (0xFE#8).toInt = "-2".toList ∧
  dec (0x00#8).toInt = "0".toList ∧ dec (0x80#8).toInt = "-128".toList ∧
  ∀ s, s.status = .run → s.pc < s.len → byteAt s s.pc = 0b01110100#8 →
    (s.pc + 1 ≥ s.len → step s = .next (faultedTo s)) ∧
    (s.pc + 1 < s.len → step s = .next (decodedTo ("je ".toList ++ dec (byteAfter s 1).toInt) 2 s))

/-- The fifteen jumps by their bytes (R64, R141 to R155; 14 of the bytes are the spec's general
knowledge GK1, the spelling is its decision D6, log 10). -/
def Obligations.FifteenJumpBytes : Prop :=
  ∀ p ∈ jumpTable, ∀ s, s.status = .run → s.pc < s.len → byteAt s s.pc = p.1 →
    DecodesTo s 2 (p.2.2.toList ++ " ".toList ++ dec (byteAfter s 1).toInt)

/-- R160 whole, for the four operations. -/
def Obligations.RmRegDecoderRule : Prop :=
  RmRegRule .movRmReg "mov" ∧ RmRegRule .addRmReg "add" ∧ RmRegRule .subRmReg "sub" ∧
  RmRegRule .cmpRmReg "cmp"

/-- R161 whole: the leading bytes `100010 d w` decode by R160 as `mov`, CLASSROM rank 22, and the
segment-register moves 0x8C and 0x8E are unrecognised; with the worked example. -/
def Obligations.MovRmRegRule : Prop :=
  classrom[21]? = some ⟨6, 0b100010, .movRmReg⟩ ∧ RmRegRule .movRmReg "mov" ∧
  (∀ s, s.status = .run → s.pc < s.len → (byteAt s s.pc).extractLsb' 2 6 = 0b100010#6 →
    Leads s .movRmReg) ∧
  (∀ s, s.status = .run → s.pc < s.len → byteAt s s.pc = 0x8C#8 ∨ byteAt s s.pc = 0x8E#8 →
    step s = .next (skippedTo s)) ∧
  (∀ s, s.pc + 2 ≤ s.len → exec (.movRmReg false .word 0b011#3 (.reg 0b000#3)) s =
    .next (decodedTo "mov ax, bx".toList 2 s))

/-- The three defined sub-ops (R170 to R173; the signedness of a one-byte immediate is the spec's
decision D10, the keyword its decision D9, logs 14 and 15). -/
def Obligations.ArithImmDecoderRule : Prop :=
  ArithImmRule 0b000#3 "add" ∧ ArithImmRule 0b101#3 "sub" ∧ ArithImmRule 0b111#3 "cmp"

/-- The undefined sub-ops (R174, R215; the spec's decisions D7 and D18, log 12): one byte is skipped,
whatever of the rest is missing, and a missing mod-op-rm byte faults. -/
def Obligations.UndefinedSubOpIsSkipped : Prop :=
  ∀ s, Leads s .arithImmRm →
    (s.len < s.pc + 2 → step s = .next (faultedTo s)) ∧
    (s.pc + 2 ≤ s.len → regField s ∈ [0b001#3, 0b010#3, 0b011#3, 0b100#3, 0b110#3] →
      step s = .next (skippedTo s))

/-- R180 whole, for the three operations. -/
def Obligations.ImmAccDecoderRule : Prop :=
  ImmAccRule .addImmAcc "add" ∧ ImmAccRule .subImmAcc "sub" ∧ ImmAccRule .cmpImmAcc "cmp"

/-- MOV immediate to register (R190; the signedness is the spec's decision D10, log 15): `w` is bit 3,
the register field bits 2 to 0, no keyword. -/
def Obligations.MovImmRegDecoderRule : Prop :=
  ∀ s, Leads s .movImmReg →
    let n := if bitOf (byteAfter s 0) 3 then 2 else 1
    DecodesTo s (1 + n)
      (twoLine "mov" (regName (sizeBit s 3) ((byteAfter s 0).extractLsb' 0 3)) (immText s 1 n))

/-- MOV immediate to register-or-memory (R195; the ignored middle field is the spec's decision D8, the
keyword D9, the signedness D10, logs 13, 14, 15): the middle field occurs nowhere in the line. -/
def Obligations.MovImmRmDecoderRule : Prop :=
  ∀ s, Leads s .movImmRm →
    (s.len < s.pc + 2 → step s = .next (faultedTo s)) ∧
    (s.pc + 2 ≤ s.len →
      let n := if bitOf (byteAfter s 0) 0 then 2 else 1
      DecodesTo s (2 + dispBytes s + n)
        (twoLine "mov" (renderOperand (rmOf s (sizeBit s 0))) (kwImmText s (2 + dispBytes s) n)))

/-- MOV between memory and accumulator (R200 to R202; the accumulator's width is the spec's decision
D15, the unsigned address D12, log 15). -/
def Obligations.MovMemAccDecoderRule : Prop :=
  (∀ s, Leads s .movMemToAcc →
    DecodesTo s 3 (twoLine "mov" (if bitOf (byteAfter s 0) 0 then "ax".toList else "al".toList)
      ("[".toList ++ dec (wordAfter s 1).toNat ++ "]".toList))) ∧
  (∀ s, Leads s .movAccToMem →
    DecodesTo s 3 (twoLine "mov" ("[".toList ++ dec (wordAfter s 1).toNat ++ "]".toList)
      (if bitOf (byteAfter s 0) 0 then "ax".toList else "al".toList)))

/-! ### Every instruction completes: its own effect, and nothing else -/

/-- The jumps (R140 to R155). -/
def Obligations.JumpsComplete : Prop :=
  ∀ (d : Byte) (s : State), s.pc + 2 ≤ s.len →
    exec (.je d) s = .next (decodedTo ("je ".toList ++ dec d.toInt) 2 s) ∧
    exec (.jl d) s = .next (decodedTo ("jl ".toList ++ dec d.toInt) 2 s) ∧
    exec (.jle d) s = .next (decodedTo ("jle ".toList ++ dec d.toInt) 2 s) ∧
    exec (.jb d) s = .next (decodedTo ("jb ".toList ++ dec d.toInt) 2 s) ∧
    exec (.jbe d) s = .next (decodedTo ("jbe ".toList ++ dec d.toInt) 2 s) ∧
    exec (.jpe d) s = .next (decodedTo ("jpe ".toList ++ dec d.toInt) 2 s) ∧
    exec (.jo d) s = .next (decodedTo ("jo ".toList ++ dec d.toInt) 2 s) ∧
    exec (.js d) s = .next (decodedTo ("js ".toList ++ dec d.toInt) 2 s) ∧
    exec (.jnz d) s = .next (decodedTo ("jnz ".toList ++ dec d.toInt) 2 s) ∧
    exec (.jge d) s = .next (decodedTo ("jge ".toList ++ dec d.toInt) 2 s) ∧
    exec (.jg d) s = .next (decodedTo ("jg ".toList ++ dec d.toInt) 2 s) ∧
    exec (.jae d) s = .next (decodedTo ("jae ".toList ++ dec d.toInt) 2 s) ∧
    exec (.ja d) s = .next (decodedTo ("ja ".toList ++ dec d.toInt) 2 s) ∧
    exec (.jpo d) s = .next (decodedTo ("jpo ".toList ++ dec d.toInt) 2 s) ∧
    exec (.jno d) s = .next (decodedTo ("jno ".toList ++ dec d.toInt) 2 s)

/-- Register-or-memory with register (R117, R160 to R164): with `d = 1` the register is the
destination, with `d = 0` the source. -/
def Obligations.RmRegFormsComplete : Prop :=
  ∀ (w : Width) (reg : BitVec 3) (rm : RmField) (s : State), s.pc + (2 + rm.dispLen) ≤ s.len →
    let r := regName w reg
    let m := renderOperand (rmOperand w rm)
    exec (.movRmReg true w reg rm) s = .next (decodedTo (twoLine "mov" r m) (2 + rm.dispLen) s) ∧
    exec (.movRmReg false w reg rm) s = .next (decodedTo (twoLine "mov" m r) (2 + rm.dispLen) s) ∧
    exec (.addRmReg true w reg rm) s = .next (decodedTo (twoLine "add" r m) (2 + rm.dispLen) s) ∧
    exec (.addRmReg false w reg rm) s = .next (decodedTo (twoLine "add" m r) (2 + rm.dispLen) s) ∧
    exec (.subRmReg true w reg rm) s = .next (decodedTo (twoLine "sub" r m) (2 + rm.dispLen) s) ∧
    exec (.subRmReg false w reg rm) s = .next (decodedTo (twoLine "sub" m r) (2 + rm.dispLen) s) ∧
    exec (.cmpRmReg true w reg rm) s = .next (decodedTo (twoLine "cmp" r m) (2 + rm.dispLen) s) ∧
    exec (.cmpRmReg false w reg rm) s = .next (decodedTo (twoLine "cmp" m r) (2 + rm.dispLen) s)

/-- Immediate to register-or-memory (R170 to R173, R195), one immediate byte: signed, keyword `byte`,
for every `mod` (decisions D8, D9, D10, logs 13, 14, 15). -/
def Obligations.ByteImmediateToRmCompletes : Prop :=
  ∀ (sx : Bool) (w : Width) (xxx : BitVec 3) (rm : RmField) (raw : Byte) (s : State),
    s.pc + (3 + rm.dispLen) ≤ s.len →
    let m := renderOperand (rmOperand w rm)
    let v := "byte ".toList ++ dec raw.toInt
    exec (.addImmRm sx w rm (.imm8 raw)) s =
      .next (decodedTo (twoLine "add" m v) (3 + rm.dispLen) s) ∧
    exec (.subImmRm sx w rm (.imm8 raw)) s =
      .next (decodedTo (twoLine "sub" m v) (3 + rm.dispLen) s) ∧
    exec (.cmpImmRm sx w rm (.imm8 raw)) s =
      .next (decodedTo (twoLine "cmp" m v) (3 + rm.dispLen) s) ∧
    exec (.movImmRm w xxx rm (.imm8 raw)) s =
      .next (decodedTo (twoLine "mov" m v) (3 + rm.dispLen) s)

/-- The same with two immediate bytes: unsigned, keyword `word`. -/
def Obligations.WordImmediateToRmCompletes : Prop :=
  ∀ (sx : Bool) (w : Width) (xxx : BitVec 3) (rm : RmField) (raw : Word16) (s : State),
    s.pc + (4 + rm.dispLen) ≤ s.len →
    let m := renderOperand (rmOperand w rm)
    let v := "word ".toList ++ dec raw.toNat
    exec (.addImmRm sx w rm (.imm16 raw)) s =
      .next (decodedTo (twoLine "add" m v) (4 + rm.dispLen) s) ∧
    exec (.subImmRm sx w rm (.imm16 raw)) s =
      .next (decodedTo (twoLine "sub" m v) (4 + rm.dispLen) s) ∧
    exec (.cmpImmRm sx w rm (.imm16 raw)) s =
      .next (decodedTo (twoLine "cmp" m v) (4 + rm.dispLen) s) ∧
    exec (.movImmRm w xxx rm (.imm16 raw)) s =
      .next (decodedTo (twoLine "mov" m v) (4 + rm.dispLen) s)

/-- Immediate to accumulator and to register (R180 to R183, R190; D10 for the register form, log 15):
one byte signed, two bytes unsigned, no keyword. -/
def Obligations.ImmediateToRegisterCompletes : Prop :=
  ∀ (reg : BitVec 3) (b : Byte) (v : Word16) (s : State),
    (s.pc + 2 ≤ s.len →
      exec (.addImmAcc .byte (.imm8 b)) s = .next (decodedTo (twoLine "add" "al".toList (dec b.toInt)) 2 s) ∧
      exec (.subImmAcc .byte (.imm8 b)) s = .next (decodedTo (twoLine "sub" "al".toList (dec b.toInt)) 2 s) ∧
      exec (.cmpImmAcc .byte (.imm8 b)) s = .next (decodedTo (twoLine "cmp" "al".toList (dec b.toInt)) 2 s) ∧
      exec (.movImmReg .byte reg (.imm8 b)) s =
        .next (decodedTo (twoLine "mov" (regName .byte reg) (dec b.toInt)) 2 s)) ∧
    (s.pc + 3 ≤ s.len →
      exec (.addImmAcc .word (.imm16 v)) s = .next (decodedTo (twoLine "add" "ax".toList (dec v.toNat)) 3 s) ∧
      exec (.subImmAcc .word (.imm16 v)) s = .next (decodedTo (twoLine "sub" "ax".toList (dec v.toNat)) 3 s) ∧
      exec (.cmpImmAcc .word (.imm16 v)) s = .next (decodedTo (twoLine "cmp" "ax".toList (dec v.toNat)) 3 s) ∧
      exec (.movImmReg .word reg (.imm16 v)) s =
        .next (decodedTo (twoLine "mov" (regName .word reg) (dec v.toNat)) 3 s))

/-- MOV between memory and accumulator (R200 to R202; D12, D15, log 15). -/
def Obligations.MovMemAccCompletes : Prop :=
  ∀ (a : Word16) (s : State), s.pc + 3 ≤ s.len →
    let m := "[".toList ++ dec a.toNat ++ "]".toList
    exec (.movMemToAcc .byte a) s = .next (decodedTo (twoLine "mov" "al".toList m) 3 s) ∧
    exec (.movMemToAcc .word a) s = .next (decodedTo (twoLine "mov" "ax".toList m) 3 s) ∧
    exec (.movAccToMem .byte a) s = .next (decodedTo (twoLine "mov" m "al".toList) 3 s) ∧
    exec (.movAccToMem .word a) s = .next (decodedTo (twoLine "mov" m "ax".toList) 3 s)

/-- Every form traps when its bytes run past the image (R211, R212; the check inside the meaning is
the model's, log 7): `OUT` and `pc` unchanged, `FAULT_AT <- pc` (decision D4). -/
def Obligations.EveryFormTrapsPastTheEnd : Prop :=
  ∀ i s, s.len < s.pc + i.length → exec i s = .next (faultedTo s)

/-- The frame of every instruction (R25, R41, R24; D4 for `FAULT_AT`): the image, its length and the
lines already emitted stay; `FAULT_AT` changes in the trap only, to the cursor, which then stays. -/
def Obligations.InstructionFrame : Prop :=
  ∀ i s t, exec i s = .next t →
    t.len = s.len ∧ (∀ a, byteAt t a = byteAt s a) ∧
    ((t.faultAt = s.faultAt ∧ t.pc = s.pc + i.length ∧ ∃ line, t.out = s.out ++ [line]) ∨
     (t.faultAt = s.pc ∧ t.pc = s.pc ∧ t.out = s.out ∧ t.status = .faultOob ∧
      s.len < s.pc + i.length))

/-! ### The exception -/

/-- Exactly when a step faults (R212, an inference the spec marks; R215, decision D18). -/
def Obligations.FaultsExactlyWhenBytesAreMissing : Prop :=
  ∀ s, s.status = .run → s.pc < s.len → (step s = .next (faultedTo s) ↔ Missing s)

/-- `FAULT_AT` is written by a faulting step only (R24; decision D4). -/
def Obligations.FaultAtIsWrittenByAFaultOnly : Prop :=
  ∀ s t, step s = .next t →
    t.faultAt = s.faultAt ∨
    (s.status = .run ∧ t.status = .faultOob ∧ t.faultAt = s.pc ∧ t.pc = s.pc ∧ t.out = s.out)

/-! ### Operands, numbers, text -/

/-- R113 and R114 whole: a displacement byte or word is read, and a zero displacement is left out of
the text though its bytes are consumed; `rm = 110` is not special. -/
def Obligations.DisplacementOperands : Prop :=
  ∀ (w : Width) (rm : BitVec 3) (lo hi : Byte) (rest : List Byte),
    takeRm 0b01#2 rm (lo :: rest) = some (.disp8 rm lo, rest) ∧
    (RmField.disp8 rm lo).dispLen = 1 ∧
    renderOperand (rmOperand w (.disp8 rm lo)) =
      (if lo = 0#8 then "[".toList ++ earom rm ++ "]".toList
       else "[".toList ++ earom rm ++ " + ".toList ++ dec lo.toInt ++ "]".toList) ∧
    takeRm 0b10#2 rm (lo :: hi :: rest) = some (.disp16 rm (le16 lo hi), rest) ∧
    (RmField.disp16 rm (le16 lo hi)).dispLen = 2 ∧
    renderOperand (rmOperand w (.disp16 rm (le16 lo hi))) =
      (if le16 lo hi = 0#16 then "[".toList ++ earom rm ++ "]".toList
       else "[".toList ++ earom rm ++ " + ".toList ++ dec (le16 lo hi).toInt ++ "]".toList)

/-- The other two kinds of operand (R111, R115; the unsigned address is the spec's decision D12, log
15): `mod = 00` with `rm = 110` takes two address bytes and never renders `[bp]`; `mod = 11` is the
register, with no byte. -/
def Obligations.DirectAndRegisterOperands : Prop :=
  ∀ (w : Width) (rm : BitVec 3) (lo hi : Byte) (rest : List Byte),
    takeRm 0b00#2 0b110#3 (lo :: hi :: rest) = some (.direct (le16 lo hi), rest) ∧
    renderOperand (rmOperand w (.direct (le16 lo hi))) =
      "[".toList ++ dec (lo.toNat + 256 * hi.toNat : Nat) ++ "]".toList ∧
    renderOperand (rmOperand w (.direct (le16 lo hi))) ≠ "[bp]".toList ∧
    (rm ≠ 0b110#3 → takeRm 0b00#2 rm rest = some (.base rm, rest) ∧
      renderOperand (rmOperand w (.base rm)) = "[".toList ++ earom rm ++ "]".toList) ∧
    takeRm 0b11#2 rm rest = some (.reg rm, rest) ∧
    renderOperand (rmOperand w (.reg rm)) = regName w rm

/-- The contents of REGROM and EAROM (R108, R112; most entries are the spec's general knowledge GK4 to
GK6, and `dl`, `dh`, `bh` are in doubt in the source, decision D14, log 11). -/
def Obligations.RomContents : Prop :=
  ([0#3, 1#3, 2#3, 3#3, 4#3, 5#3, 6#3, 7#3].map (regName .byte) =
    ["al".toList, "cl".toList, "dl".toList, "bl".toList, "ah".toList, "ch".toList, "dh".toList,
     "bh".toList]) ∧
  ([0#3, 1#3, 2#3, 3#3, 4#3, 5#3, 6#3, 7#3].map (regName .word) =
    ["ax".toList, "cx".toList, "dx".toList, "bx".toList, "sp".toList, "bp".toList, "si".toList,
     "di".toList]) ∧
  ([0#3, 1#3, 2#3, 3#3, 4#3, 5#3, 6#3, 7#3].map earom =
    ["bx + si".toList, "bx + di".toList, "bp + si".toList, "bp + di".toList, "si".toList,
     "di".toList, "bp".toList, "bx".toList])

/-- The number an immediate renders as (R120, R121; decision D10, log 15): one byte signed, which is
also the value of the byte sign-extended to 16 bits; two bytes unsigned. -/
def Obligations.ImmediateValues : Prop :=
  (∀ b : Byte, immValue (.imm8 b) = (if b.toNat < 128 then (b.toNat : Int) else b.toNat - 256) ∧
    immValue (.imm8 b) = (b.signExtend 16).toInt) ∧
  (∀ v : Word16, immValue (.imm16 v) = v.toNat)

/-- The decimal numeral of every integer (R125; decision D13, log 15): it matches the grammar's `int`,
and denotes the integer. -/
def Obligations.DecimalNumeralDenotesItsNumber : Prop :=
  ∀ i : Int, IsInt (dec i) ∧ intValue (dec i) = i

/-! ### Invariants of every step, and the pass -/

/-- The invariant of a pass holds at reset (R21, R23, R33). -/
def Obligations.PassInvAtReset : Prop := PassInv State.reset

/-- Every step keeps the invariant of a pass: the canonical image, `pc <= LEN`, `STATUS` agreeing with
the cursor, two bytes for every line (R21, R23, R96, R100; inferences the spec marks). -/
def Obligations.StepKeepsPassInv : Prop := ∀ s t, PassInv s → step s = .next t → PassInv t

/-- Every step keeps the grammar of the lines (R75, R127; the form is the spec's decision D13 and what
it says of `Render` an inference it marks, log 15). -/
def Obligations.StepKeepsLinesInGrammar : Prop := ∀ s t, LinesWf s → step s = .next t → LinesWf t

/-- The transitions of `STATUS` (R23; the spec gives its numbers by decision D3): in a pass, `RUN` stays
exactly when the step ends below `LEN`, becomes `DONE` when it ends at `LEN`, `FAULT_OOB` when it
raises; a terminal status stays. -/
def Obligations.StatusTransitions : Prop :=
  ∀ s t, PassInv s → step s = .next t →
    (s.status ≠ .run → t.status = s.status) ∧
    (s.status = .run →
      (t.status = .run ∧ s.pc < t.pc ∧ t.pc < s.len) ∨
      (t.status = .done ∧ s.pc < t.pc ∧ t.pc = s.len) ∨
      (t.status = .faultOob ∧ t.pc = s.pc ∧ t.faultAt = s.pc))

/-- `OUT` is append-only (R25; that a fault keeps the earlier lines is the spec's decision D19): at
most one line, only together with the cursor's move over an instruction. -/
def Obligations.OutIsAppendOnly : Prop :=
  ∀ s t, step s = .next t →
    t.out = s.out ∨ (s.status = .run ∧ s.pc + 2 ≤ t.pc ∧ ∃ line, t.out = s.out ++ [line])

/-- R99: what a step does depends on the cursor, the status, `LEN` and the bytes
`IMG[pc .. min(pc+5, LEN-1)]`, and on nothing decoded earlier; two passes over the same image go through
the same states, whatever came before them (so reset gives `FAULT_AT` one value, log 2). -/
def Obligations.StepDependsOnSixBytesOnly : Prop :=
  (∀ s u : State, s.pc = u.pc → s.len = u.len → s.status = u.status →
    (∀ k, k ≤ 5 → s.pc + k < s.len → byteAt s (s.pc + k) = byteAt u (u.pc + k)) →
    ∃ t v new, step s = .next t ∧ step u = .next v ∧ t.pc = v.pc ∧ t.status = v.status ∧
      t.out = s.out ++ new ∧ v.out = u.out ++ new ∧
      ((t.faultAt = s.faultAt ∧ v.faultAt = u.faultAt) ∨ t.faultAt = v.faultAt)) ∧
  (∀ (bytes : List Byte) (s u t v : State) (n : Nat), startPass bytes s = some t →
    startPass bytes u = some v → core.run n t = core.run n v)

/-- Bounded termination (R97, R247; inferences the spec marks): a pass reaches a terminal status after
at most `LEN - pc` steps, with `DONE` only at the end of the image and `FAULT_OOB` only at `FAULT_AT`. -/
def Obligations.PassTerminates : Prop :=
  ∀ s, PassInv s → ∃ n t, n ≤ s.len - s.pc ∧ core.run n s = .next t ∧ t.status.terminal = true ∧
    (t.status = .done → t.pc = s.len) ∧ (t.status = .faultOob → t.pc = t.faultAt ∧ t.pc < s.len)

/-- In every pass the number of lines is at most `LEN div 2` (R100, an inference the spec marks). -/
def Obligations.LinesAtMostHalfTheImage : Prop :=
  ∀ (bytes : List Byte) (s t u : State) (n : Nat), startPass bytes s = some t →
    core.run n t = .next u → u.out.length ≤ bytes.length / 2
end

