-- ==== Sys2Proof/Laws/State.lean ====
section
/-! SUPPORT. What each state update leaves in each field: one lemma per field per update, so that no
later proof unfolds a record update. -/

namespace Sys2Proof.Laws

open Sys2Proof.Machine

@[simp] theorem emit_img (line : Line) (s : State) : (emit line s).img = s.img := rfl
@[simp] theorem emit_len (line : Line) (s : State) : (emit line s).len = s.len := rfl
@[simp] theorem emit_pc (line : Line) (s : State) : (emit line s).pc = s.pc := rfl
@[simp] theorem emit_status (line : Line) (s : State) : (emit line s).status = s.status := rfl
@[simp] theorem emit_faultAt (line : Line) (s : State) : (emit line s).faultAt = s.faultAt := rfl
@[simp] theorem emit_out (line : Line) (s : State) : (emit line s).out = s.out ++ [line] := rfl

@[simp] theorem advance_img (n : Nat) (s : State) : (advance n s).img = s.img := rfl
@[simp] theorem advance_len (n : Nat) (s : State) : (advance n s).len = s.len := rfl
@[simp] theorem advance_pc (n : Nat) (s : State) : (advance n s).pc = s.pc + n := rfl
@[simp] theorem advance_status (n : Nat) (s : State) : (advance n s).status = statusAt (s.pc + n) s.len s.status := rfl
@[simp] theorem advance_faultAt (n : Nat) (s : State) : (advance n s).faultAt = s.faultAt := rfl
@[simp] theorem advance_out (n : Nat) (s : State) : (advance n s).out = s.out := rfl

@[simp] theorem raiseOutOfBounds_img (s : State) : (raiseOutOfBounds s).img = s.img := rfl
@[simp] theorem raiseOutOfBounds_len (s : State) : (raiseOutOfBounds s).len = s.len := rfl
@[simp] theorem raiseOutOfBounds_pc (s : State) : (raiseOutOfBounds s).pc = s.pc := rfl
@[simp] theorem raiseOutOfBounds_status (s : State) : (raiseOutOfBounds s).status = .faultOob := rfl
@[simp] theorem raiseOutOfBounds_faultAt (s : State) : (raiseOutOfBounds s).faultAt = s.pc := rfl
@[simp] theorem raiseOutOfBounds_out (s : State) : (raiseOutOfBounds s).out = s.out := rfl

@[simp] theorem skip_img (n : Nat) (s : State) : (skip n s).img = s.img := rfl
@[simp] theorem skip_len (n : Nat) (s : State) : (skip n s).len = s.len := rfl
@[simp] theorem skip_pc (n : Nat) (s : State) : (skip n s).pc = s.pc + n := rfl
@[simp] theorem skip_status (n : Nat) (s : State) : (skip n s).status = statusAt (s.pc + n) s.len s.status := rfl
@[simp] theorem skip_faultAt (n : Nat) (s : State) : (skip n s).faultAt = s.faultAt := rfl
@[simp] theorem skip_out (n : Nat) (s : State) : (skip n s).out = s.out := rfl

@[simp] theorem resetPass_img (s : State) : (resetPass s).img = s.img := rfl
@[simp] theorem resetPass_len (s : State) : (resetPass s).len = s.len := rfl
@[simp] theorem resetPass_pc (s : State) : (resetPass s).pc = 0 := rfl
@[simp] theorem resetPass_status (s : State) : (resetPass s).status = (if s.len = 0 then .done else .run) := rfl
@[simp] theorem resetPass_faultAt (s : State) : (resetPass s).faultAt = Config.faultAtReset := rfl
@[simp] theorem resetPass_out (s : State) : (resetPass s).out = [] := rfl

@[simp] theorem placeAtCursor_img (bytes : List Byte) (s : State) : (placeAtCursor bytes s).img = Memory.writeAll s.img s.pc bytes := rfl
@[simp] theorem placeAtCursor_len (bytes : List Byte) (s : State) : (placeAtCursor bytes s).len = max s.len (s.pc + bytes.length) := rfl
@[simp] theorem placeAtCursor_pc (bytes : List Byte) (s : State) : (placeAtCursor bytes s).pc = s.pc := rfl
@[simp] theorem placeAtCursor_status (bytes : List Byte) (s : State) : (placeAtCursor bytes s).status = .run := rfl
@[simp] theorem placeAtCursor_faultAt (bytes : List Byte) (s : State) : (placeAtCursor bytes s).faultAt = s.faultAt := rfl
@[simp] theorem placeAtCursor_out (bytes : List Byte) (s : State) : (placeAtCursor bytes s).out = s.out := rfl

end Sys2Proof.Laws
end

