-- ==== Sys2Proof/Laws/Ops.lean ====
section
/-! SUPPORT. What the shared operations do, said once: the image, `MemRead`, the fetch window, the
three ends of a step and the host's moves. -/

namespace Sys2Proof.Laws

open Sys2Proof.Machine

/-! ### The image -/

theorem Memory.wfFrom_mono {m : Memory} {lo lo' : Nat} (h : Memory.wfFrom lo m = true)
    (hle : lo' ≤ lo) : Memory.wfFrom lo' m = true := by
  cases m with
  | nil => rfl
  | cons c m =>
    simp only [Memory.wfFrom, Bool.and_eq_true, decide_eq_true_eq] at h ⊢
    exact ⟨⟨by omega, h.1.2⟩, h.2⟩

/-- Below its first offset a canonical image lists nothing. -/
theorem Memory.read_below {m : Memory} {lo a : Nat} (h : Memory.wfFrom lo m = true) (ha : a < lo) :
    Memory.read m a = Config.unlistedByte := by
  induction m generalizing lo with
  | nil => rfl
  | cons c m ih =>
    simp only [Memory.wfFrom, Bool.and_eq_true, decide_eq_true_eq] at h
    have hk : c.1 ≠ a := by omega
    simp only [Memory.read, hk, if_false]
    exact ih h.2 (by omega)

/-- A write keeps the canonical form. -/
theorem Memory.write_wfFrom {m : Memory} {lo a : Nat} (b : Byte) (h : Memory.wfFrom lo m = true)
    (ha : lo ≤ a) : Memory.wfFrom lo (Memory.write m a b) = true := by
  induction m generalizing lo with
  | nil =>
    by_cases hb : b = Config.unlistedByte <;> simp [Memory.write, Memory.wfFrom, hb, ha]
  | cons c m ih =>
    simp only [Memory.wfFrom, Bool.and_eq_true, decide_eq_true_eq] at h
    obtain ⟨⟨hlo, hc⟩, hm⟩ := h
    rcases Nat.lt_trichotomy a c.1 with hlt | heq | hgt
    · by_cases hb : b = Config.unlistedByte
      · simp [Memory.write, Memory.wfFrom, hlt, hb, hc, hm, hlo]
      · simp only [Memory.write, hlt, hb, if_true, if_false, Memory.wfFrom, Bool.and_eq_true,
          decide_eq_true_eq]
        exact ⟨⟨ha, by simpa using hb⟩, ⟨by omega, hc⟩, hm⟩
    · subst heq
      by_cases hb : b = Config.unlistedByte
      · simpa [Memory.write, hb] using Memory.wfFrom_mono hm (by omega)
      · simp [Memory.write, Memory.wfFrom, hb, hm, hlo]
    · have h1 : ¬ a < c.1 := by omega
      have h2 : ¬ a = c.1 := by omega
      simp only [Memory.write, h1, h2, if_false, Memory.wfFrom, Bool.and_eq_true, decide_eq_true_eq]
      exact ⟨⟨hlo, hc⟩, ih hm (by omega)⟩

/-- A read after a write: the byte written there, every other offset as before. -/
theorem Memory.read_write {m : Memory} {lo : Nat} (h : Memory.wfFrom lo m = true) (a x : Nat)
    (b : Byte) : Memory.read (Memory.write m a b) x = if x = a then b else Memory.read m x := by
  induction m generalizing lo with
  | nil =>
    by_cases hb : b = Config.unlistedByte
    · simp [Memory.write, hb, Memory.read]
    · by_cases hx : x = a
      · simp [Memory.write, Memory.read, hb, hx]
      · simp [Memory.write, Memory.read, hb, hx, Ne.symm hx]
  | cons c m ih =>
    simp only [Memory.wfFrom, Bool.and_eq_true, decide_eq_true_eq] at h
    obtain ⟨⟨hlo, hc⟩, hm⟩ := h
    rcases Nat.lt_trichotomy a c.1 with hlt | heq | hgt
    · by_cases hb : b = Config.unlistedByte
      · simp only [Memory.write, hlt, hb, if_true]
        split
        · next hx =>
          subst hx
          have hne : ¬ c.1 = x := by omega
          simpa [Memory.read, hne] using Memory.read_below hm (by omega : x < c.1 + 1)
        · rfl
      · simp only [Memory.write, hlt, hb, if_true, if_false, Memory.read]
        by_cases hx : x = a
        · simp [hx]
        · simp [hx, Ne.symm hx]
    · subst heq
      by_cases hb : b = Config.unlistedByte
      · simp only [Memory.write, Nat.lt_irrefl, hb, if_true, if_false]
        split
        · next hx => subst hx; exact Memory.read_below hm (by omega)
        · next hx => simp [Memory.read, Ne.symm hx]
      · simp only [Memory.write, Nat.lt_irrefl, hb, if_true, if_false, Memory.read]
        by_cases hx : x = c.1
        · simp [hx]
        · simp [hx, Ne.symm hx]
    · have h1 : ¬ a < c.1 := by omega
      have h2 : ¬ a = c.1 := by omega
      simp only [Memory.write, h1, h2, if_false, Memory.read, ih hm]
      by_cases hx : c.1 = x
      · have : ¬ x = a := by omega
        simp [hx, this]
      · simp [hx]

/-- Writing a row of bytes keeps the canonical form. -/
theorem Memory.writeAll_wf {m : Memory} (h : Memory.wf m = true) (a : Nat) (bs : List Byte) :
    Memory.wf (Memory.writeAll m a bs) = true := by
  induction bs generalizing m a with
  | nil => exact h
  | cons b bs ih => exact ih (Memory.write_wfFrom b h (Nat.zero_le a)) (a + 1)

/-- A read after writing a row of bytes. -/
theorem Memory.read_writeAll {m : Memory} (h : Memory.wf m = true) (a x : Nat) (bs : List Byte) :
    Memory.read (Memory.writeAll m a bs) x =
      if a ≤ x ∧ x < a + bs.length then bs.getD (x - a) 0#8 else Memory.read m x := by
  induction bs generalizing m a with
  | nil =>
    simp [Memory.writeAll]
  | cons b bs ih =>
    rw [Memory.writeAll, ih (Memory.write_wfFrom b h (Nat.zero_le a)), Memory.read_write h]
    by_cases hx : x = a
    · subst hx
      simp
    · by_cases h1 : a + 1 ≤ x ∧ x < a + 1 + bs.length
      · have h2 : a ≤ x ∧ x < a + (b :: bs).length := by simp; omega
        obtain ⟨k, rfl⟩ : ∃ k, x = a + 1 + k := ⟨x - (a + 1), by omega⟩
        rw [if_pos h1, if_pos h2]
        have e1 : a + 1 + k - (a + 1) = k := by omega
        have e2 : a + 1 + k - a = k + 1 := by omega
        rw [e1, e2]
        rfl
      · have h2 : ¬ (a ≤ x ∧ x < a + (b :: bs).length) := by simp; omega
        rw [if_neg h1, if_neg h2, if_neg hx]

theorem Memory.write_below {m : Memory} {len a : Nat} (b : Byte) (h : Memory.below len m = true)
    (ha : a < len) : Memory.below len (Memory.write m a b) = true := by
  induction m with
  | nil => by_cases hb : b = Config.unlistedByte <;> simp [Memory.write, Memory.below, hb, ha]
  | cons c m ih =>
    simp only [Memory.below, Bool.and_eq_true, decide_eq_true_eq] at h
    have ih := ih h.2
    simp only [Memory.write]
    split
    · split
      · simp [Memory.below, h]
      · simp [Memory.below, h, ha]
    · split
      · split
        · exact h.2
        · simp [Memory.below, h, ha]
      · simp [Memory.below, h.1, ih]

theorem Memory.writeAll_below {m : Memory} {len : Nat} (h : Memory.below len m = true) (a : Nat)
    (bs : List Byte) (hle : a + bs.length ≤ len) :
    Memory.below len (Memory.writeAll m a bs) = true := by
  induction bs generalizing m a with
  | nil => exact h
  | cons b bs ih =>
    simp only [List.length_cons] at hle
    exact ih (Memory.write_below b h (by omega)) (a + 1) (by omega)

theorem Memory.below_mono {m : Memory} {len len' : Nat} (h : Memory.below len m = true)
    (hle : len ≤ len') : Memory.below len' m = true := by
  induction m with
  | nil => rfl
  | cons c m ih =>
    simp only [Memory.below, Bool.and_eq_true, decide_eq_true_eq] at h ⊢
    exact ⟨by omega, ih h.2⟩

/-- The reset image has the canonical form. -/
theorem reset_imageWf : Safety.ImageWf State.reset := by decide

/-- Placing bytes at the cursor keeps the image well formed. -/
theorem placeAtCursor_imageWf {s : State} (bs : List Byte) (h : Safety.ImageWf s) :
    Safety.ImageWf (placeAtCursor bs s) :=
  ⟨Memory.writeAll_wf h.1 _ _,
    Memory.writeAll_below (Memory.below_mono h.2 (Nat.le_max_left _ _)) _ _ (Nat.le_max_right _ _)⟩

/-- A supplied image is well formed. -/
theorem supplyImage_imageWf {bs : List Byte} {s t : State} (h : supplyImage bs s = some t) :
    Safety.ImageWf t := by
  simp only [supplyImage] at h
  split at h
  · cases h
  · cases h
    exact ⟨Memory.writeAll_wf rfl _ _, Memory.writeAll_below rfl _ _ (by simp)⟩

/-! ### MemRead and the fetch window -/

theorem memRead1_inside {s : State} {a : Nat} (h : a < s.len) : memRead1 s a = .ok (byteAt s a) := by
  simp [memRead1]; omega

theorem memRead1_outside {s : State} {a : Nat} (h : s.len ≤ a) :
    memRead1 s a = .error .outOfBounds := by
  simp [memRead1]; omega

theorem memRead2_inside {s : State} {a : Nat} (h : a + 1 < s.len) :
    memRead2 s a = .ok (le16 (byteAt s a) (byteAt s (a + 1))) := by
  simp [memRead2]; omega

theorem memRead2_outside {s : State} {a : Nat} (h : s.len ≤ a + 1) :
    memRead2 s a = .error .outOfBounds := by
  simp [memRead2]; omega

theorem bytesFrom_cons {s : State} {a : Nat} (n : Nat) (h : a < s.len) :
    bytesFrom s (n + 1) a = byteAt s a :: bytesFrom s n (a + 1) := by
  simp [bytesFrom, memRead1_inside h]

theorem bytesFrom_end {s : State} {a : Nat} (n : Nat) (h : s.len ≤ a) : bytesFrom s n a = [] := by
  cases n with
  | zero => rfl
  | succ n => simp [bytesFrom, memRead1_outside h]

theorem bytesFrom_length (s : State) (n a : Nat) : (bytesFrom s n a).length = min n (s.len - a) := by
  induction n generalizing a with
  | zero => simp [bytesFrom]
  | succ n ih =>
    by_cases h : a < s.len
    · rw [bytesFrom_cons n h, List.length_cons, ih]; omega
    · rw [bytesFrom_end _ (by omega)]; simp; omega

theorem bytesFrom_getElem? {s : State} {n a k : Nat} (hk : k < n) (h : a + k < s.len) :
    (bytesFrom s n a)[k]? = some (byteAt s (a + k)) := by
  induction n generalizing a k with
  | zero => omega
  | succ n ih =>
    rw [bytesFrom_cons n (by omega)]
    cases k with
    | zero => simp
    | succ k =>
      rw [List.getElem?_cons_succ, ih (by omega) (by omega)]
      congr 2
      omega

/-! ### How a step ends -/

/-- The two ends of a decoded step. -/
theorem retire_cases (r : Record) (n : Nat) (s : State) :
    (s.pc + n ≤ s.len ∧ retire r n s = Safety.decodedTo (render r) n s) ∨
    (s.len < s.pc + n ∧ retire r n s = Safety.faultedTo s) := by
  by_cases h : s.pc + n ≤ s.len
  · exact .inl ⟨h, by simp [retire, h]; rfl⟩
  · exact .inr ⟨by omega, by simp [retire, h]; rfl⟩

theorem skip_one_eq (s : State) : skip 1 s = Safety.skippedTo s := rfl

theorem raiseOutOfBounds_eq (s : State) : raiseOutOfBounds s = Safety.faultedTo s := rfl

end Sys2Proof.Laws
end

