-- ==== Sys2Proof/Laws/PerInstr.lean ====
section
/-! SUPPORT. Statements about every instruction as syntax, one lemma per constructor. -/

namespace Sys2Proof.Laws

/-- An encoding takes 2 to 6 bytes (R60), and `Instr.length` (R70) is how many it takes. -/
def LengthRange.Statement (i : Instr) : Prop :=
  2 ≤ i.length ∧ i.length ≤ maxLength ∧ (encode i).length = i.length

theorem rm_encode_length (reg : BitVec 3) (rm : RmField) :
    (rm.encode reg).length = 1 + rm.dispLen := by
  cases rm <;> rfl

theorem imm_encode_length (imm : ImmField) : imm.encode.length = imm.immLen := by
  cases imm <;> rfl

theorem dispLen_le (rm : RmField) : rm.dispLen ≤ 2 := by
  cases rm <;> simp [RmField.dispLen]

theorem immLen_range (imm : ImmField) : 1 ≤ imm.immLen ∧ imm.immLen ≤ 2 := by
  cases imm <;> simp [ImmField.immLen]

namespace LengthRange

theorem je (disp : Byte) : Statement (.je disp) := ⟨Nat.le_of_ble_eq_true rfl, Nat.le_of_ble_eq_true rfl, rfl⟩

theorem jl (disp : Byte) : Statement (.jl disp) := ⟨Nat.le_of_ble_eq_true rfl, Nat.le_of_ble_eq_true rfl, rfl⟩

theorem jle (disp : Byte) : Statement (.jle disp) := ⟨Nat.le_of_ble_eq_true rfl, Nat.le_of_ble_eq_true rfl, rfl⟩

theorem jb (disp : Byte) : Statement (.jb disp) := ⟨Nat.le_of_ble_eq_true rfl, Nat.le_of_ble_eq_true rfl, rfl⟩

theorem jbe (disp : Byte) : Statement (.jbe disp) := ⟨Nat.le_of_ble_eq_true rfl, Nat.le_of_ble_eq_true rfl, rfl⟩

theorem jpe (disp : Byte) : Statement (.jpe disp) := ⟨Nat.le_of_ble_eq_true rfl, Nat.le_of_ble_eq_true rfl, rfl⟩

theorem jo (disp : Byte) : Statement (.jo disp) := ⟨Nat.le_of_ble_eq_true rfl, Nat.le_of_ble_eq_true rfl, rfl⟩

theorem js (disp : Byte) : Statement (.js disp) := ⟨Nat.le_of_ble_eq_true rfl, Nat.le_of_ble_eq_true rfl, rfl⟩

theorem jnz (disp : Byte) : Statement (.jnz disp) := ⟨Nat.le_of_ble_eq_true rfl, Nat.le_of_ble_eq_true rfl, rfl⟩

theorem jge (disp : Byte) : Statement (.jge disp) := ⟨Nat.le_of_ble_eq_true rfl, Nat.le_of_ble_eq_true rfl, rfl⟩

theorem jg (disp : Byte) : Statement (.jg disp) := ⟨Nat.le_of_ble_eq_true rfl, Nat.le_of_ble_eq_true rfl, rfl⟩

theorem jae (disp : Byte) : Statement (.jae disp) := ⟨Nat.le_of_ble_eq_true rfl, Nat.le_of_ble_eq_true rfl, rfl⟩

theorem ja (disp : Byte) : Statement (.ja disp) := ⟨Nat.le_of_ble_eq_true rfl, Nat.le_of_ble_eq_true rfl, rfl⟩

theorem jpo (disp : Byte) : Statement (.jpo disp) := ⟨Nat.le_of_ble_eq_true rfl, Nat.le_of_ble_eq_true rfl, rfl⟩

theorem jno (disp : Byte) : Statement (.jno disp) := ⟨Nat.le_of_ble_eq_true rfl, Nat.le_of_ble_eq_true rfl, rfl⟩

theorem movRmReg (d : Bool) (w : Width) (reg : BitVec 3) (rm : RmField) :
    Statement (.movRmReg d w reg rm) := by
  have := dispLen_le rm
  simp only [Statement, Instr.length, encode, maxLength, List.length_cons, rm_encode_length]
  omega

theorem addRmReg (d : Bool) (w : Width) (reg : BitVec 3) (rm : RmField) :
    Statement (.addRmReg d w reg rm) := by
  have := dispLen_le rm
  simp only [Statement, Instr.length, encode, maxLength, List.length_cons, rm_encode_length]
  omega

theorem subRmReg (d : Bool) (w : Width) (reg : BitVec 3) (rm : RmField) :
    Statement (.subRmReg d w reg rm) := by
  have := dispLen_le rm
  simp only [Statement, Instr.length, encode, maxLength, List.length_cons, rm_encode_length]
  omega

theorem cmpRmReg (d : Bool) (w : Width) (reg : BitVec 3) (rm : RmField) :
    Statement (.cmpRmReg d w reg rm) := by
  have := dispLen_le rm
  simp only [Statement, Instr.length, encode, maxLength, List.length_cons, rm_encode_length]
  omega

theorem addImmRm (sx : Bool) (w : Width) (rm : RmField) (imm : ImmField) :
    Statement (.addImmRm sx w rm imm) := by
  have := dispLen_le rm
  have := immLen_range imm
  simp only [Statement, Instr.length, encode, maxLength, List.length_cons, List.length_append,
    rm_encode_length, imm_encode_length]
  omega

theorem subImmRm (sx : Bool) (w : Width) (rm : RmField) (imm : ImmField) :
    Statement (.subImmRm sx w rm imm) := by
  have := dispLen_le rm
  have := immLen_range imm
  simp only [Statement, Instr.length, encode, maxLength, List.length_cons, List.length_append,
    rm_encode_length, imm_encode_length]
  omega

theorem cmpImmRm (sx : Bool) (w : Width) (rm : RmField) (imm : ImmField) :
    Statement (.cmpImmRm sx w rm imm) := by
  have := dispLen_le rm
  have := immLen_range imm
  simp only [Statement, Instr.length, encode, maxLength, List.length_cons, List.length_append,
    rm_encode_length, imm_encode_length]
  omega

theorem addImmAcc (w : Width) (imm : ImmField) : Statement (.addImmAcc w imm) := by
  have := immLen_range imm
  simp only [Statement, Instr.length, encode, maxLength, List.length_cons, imm_encode_length]
  omega

theorem subImmAcc (w : Width) (imm : ImmField) : Statement (.subImmAcc w imm) := by
  have := immLen_range imm
  simp only [Statement, Instr.length, encode, maxLength, List.length_cons, imm_encode_length]
  omega

theorem cmpImmAcc (w : Width) (imm : ImmField) : Statement (.cmpImmAcc w imm) := by
  have := immLen_range imm
  simp only [Statement, Instr.length, encode, maxLength, List.length_cons, imm_encode_length]
  omega

theorem movImmReg (w : Width) (reg : BitVec 3) (imm : ImmField) :
    Statement (.movImmReg w reg imm) := by
  have := immLen_range imm
  simp only [Statement, Instr.length, encode, maxLength, List.length_cons, imm_encode_length]
  omega

theorem movImmRm (w : Width) (xxx : BitVec 3) (rm : RmField) (imm : ImmField) :
    Statement (.movImmRm w xxx rm imm) := by
  have := dispLen_le rm
  have := immLen_range imm
  simp only [Statement, Instr.length, encode, maxLength, List.length_cons, List.length_append,
    rm_encode_length, imm_encode_length]
  omega

theorem movMemToAcc (w : Width) (addr : Word16) : Statement (.movMemToAcc w addr) :=
  ⟨Nat.le_of_ble_eq_true rfl, Nat.le_of_ble_eq_true rfl, rfl⟩

theorem movAccToMem (w : Width) (addr : Word16) : Statement (.movAccToMem w addr) :=
  ⟨Nat.le_of_ble_eq_true rfl, Nat.le_of_ble_eq_true rfl, rfl⟩

end LengthRange

end Sys2Proof.Laws
end

