-- ==== Sys2Proof/Laws/Step.lean ====
section
/-! SUPPORT. What a step can do, said once, for later proofs to cite instead of unfolding the step. -/

namespace Sys2Proof.Laws

open Sys2Proof.Machine

/-- The record an instruction decodes to (R30). -/
def recordOf : Instr → Record
  | .je d => .jcc .e d
  | .jl d => .jcc .l d
  | .jle d => .jcc .le d
  | .jb d => .jcc .b d
  | .jbe d => .jcc .be d
  | .jpe d => .jcc .pe d
  | .jo d => .jcc .o d
  | .js d => .jcc .s d
  | .jnz d => .jcc .nz d
  | .jge d => .jcc .ge d
  | .jg d => .jcc .g d
  | .jae d => .jcc .ae d
  | .ja d => .jcc .a d
  | .jpo d => .jcc .po d
  | .jno d => .jcc .no d
  | .movRmReg d w reg rm => recordRmReg .mov d w reg rm
  | .addRmReg d w reg rm => recordRmReg .add d w reg rm
  | .subRmReg d w reg rm => recordRmReg .sub d w reg rm
  | .cmpRmReg d w reg rm => recordRmReg .cmp d w reg rm
  | .addImmRm _ w rm imm => recordImmRm .add w rm imm
  | .subImmRm _ w rm imm => recordImmRm .sub w rm imm
  | .cmpImmRm _ w rm imm => recordImmRm .cmp w rm imm
  | .addImmAcc w imm => recordImmReg .add w 0#3 imm
  | .subImmAcc w imm => recordImmReg .sub w 0#3 imm
  | .cmpImmAcc w imm => recordImmReg .cmp w 0#3 imm
  | .movImmReg w reg imm => recordImmReg .mov w reg imm
  | .movImmRm w _ rm imm => recordImmRm .mov w rm imm
  | .movMemToAcc w a => .two .mov w (accumulator w) (.memDir a)
  | .movAccToMem w a => .two .mov w (.memDir a) (accumulator w)

/-- Every meaning is `retire` of the instruction's record over its length. -/
theorem exec_eq_retire (i : Instr) (s : State) :
    exec i s = .next (retire (recordOf i) i.length s) := by
  cases i <;> rfl

theorem step_run {s : State} (h : s.status = .run) : step s = runDecoded (decode (fetch s)) s := by
  simp [step, h, runStep]

/-- With a byte at the cursor, an empty decoding never comes: a skip needs `pc < LEN`. -/
theorem fetch_end {s : State} (h : s.len ≤ s.pc) : fetch s = [] := bytesFrom_end maxLength h

theorem step_idle {s : State} (h : s.status ≠ .run) : step s = .next s := by
  cases hs : s.status <;> simp_all [step]

/-- One step of a run. -/
theorem run_succ {s t : State} (n : Nat) (h : step s = .next t) : core.run (n + 1) s = core.run n t := by
  have h' : core.step s = .next t := h
  exact (Host.Core.run.eq_2 core s n).trans (by rw [h'])

/-- Everything a step can do, once: idle, one decoded instruction that fits, one skipped byte, or the
exception. -/
theorem step_cases (s : State) :
    (s.status ≠ .run ∧ step s = .next s) ∨
    (s.status = .run ∧ ∃ i, decode (fetch s) = .instr i ∧ s.pc + i.length ≤ s.len ∧
      step s = .next (Safety.decodedTo (render (recordOf i)) i.length s)) ∨
    (s.status = .run ∧ s.pc < s.len ∧ step s = .next (Safety.skippedTo s)) ∨
    (s.status = .run ∧ step s = .next (Safety.faultedTo s)) := by
  by_cases h : s.status = .run
  · refine .inr ?_
    rw [step_run h]
    have hin : decode (fetch s) ≠ .truncated → s.pc < s.len := fun hd => by
      rcases Nat.lt_or_ge s.pc s.len with hl | hl
      · exact hl
      · exact absurd (by rw [fetch_end hl]; rfl) hd
    cases hd : decode (fetch s) with
    | instr i =>
      simp only [runDecoded, exec_eq_retire]
      rcases retire_cases (recordOf i) i.length s with ⟨hl, e⟩ | ⟨_, e⟩
      · exact .inl ⟨h, i, rfl, hl, by rw [e]⟩
      · exact .inr (.inr ⟨h, by rw [e]⟩)
    | unrecognised => exact .inr (.inl ⟨h, hin (by simp [hd]), rfl⟩)
    | undefinedSubOp => exact .inr (.inl ⟨h, hin (by simp [hd]), rfl⟩)
    | truncated => exact .inr (.inr ⟨h, rfl⟩)
  · exact .inl ⟨h, step_idle h⟩

end Sys2Proof.Laws
end

