-- ==== Sys2Proof/Tests/Slice0.lean ====
section
/-! SUPPORT. The model's own tests. Expected lines, cursors and statuses are those of
spec/95_test_vectors.md and of the rules' worked examples; the words of the decode tests are written out
bit by bit from spec/30_encoding.md R61 to R69. -/

namespace Sys2Proof.Tests

open Sys2Proof.Machine Sys2Proof.Safety Sys2Proof.Claims

/-- A pass over `bytes`, just started. -/
def boot (bytes : List Byte) : State := (startPass bytes State.reset).getD State.reset

/-- One step from a fresh pass ends at `pc`, with `status` and exactly these lines. -/
def oneStep (bytes : List Byte) (pc : Nat) (status : Status) (lines : List String) : Bool :=
  match step (boot bytes) with
  | .next t => t.pc == pc && t.status == status && t.out == lines.map String.toList
  | .fault _ => false
  | .refused _ => false

/-- One step from a fresh pass faults: nothing moves, `FAULT_AT` is the leading byte's offset (0). -/
def oneFault (bytes : List Byte) : Bool :=
  match step (boot bytes) with
  | .next t => t.pc == 0 && t.status == .faultOob && t.out == [] && t.faultAt == 0
  | .fault _ => false
  | .refused _ => false

/-! ### WellFormed: one ill-formed term for each check -/

theorem test_wf_bare_base_110 : (Instr.movRmReg true .word 0#3 (.base 6#3)).wf = false := by decide
theorem test_wf_bare_base_110_arith :
    (Instr.addImmRm true .word (.base 6#3) (.imm8 7#8)).wf = false := by decide
theorem test_wf_bare_base_110_movImmRm :
    (Instr.movImmRm .byte 0#3 (.base 6#3) (.imm8 7#8)).wf = false := by decide
theorem test_wf_arith_word_needs_two_bytes :
    (Instr.subImmRm false .word (.reg 0#3) (.imm8 7#8)).wf = false := by decide
theorem test_wf_arith_signed_word_takes_one_byte :
    (Instr.cmpImmRm true .word (.reg 0#3) (.imm16 7#16)).wf = false := by decide
theorem test_wf_arith_byte_takes_one_byte :
    (Instr.addImmRm false .byte (.reg 0#3) (.imm16 7#16)).wf = false := by decide
theorem test_wf_acc_size : (Instr.addImmAcc .word (.imm8 7#8)).wf = false := by decide
theorem test_wf_reg_size : (Instr.movImmReg .byte 1#3 (.imm16 7#16)).wf = false := by decide
theorem test_wf_rm_size : (Instr.movImmRm .word 0#3 (.reg 0#3) (.imm8 7#8)).wf = false := by decide

/-! ### Decoding: a word written out for every constructor -/

theorem test_decode_je : decode [0b01110100#8, 0xFE#8] = .instr (.je 0xFE#8) := by decide
theorem test_decode_jl : decode [0b01111100#8, 0x05#8] = .instr (.jl 0x05#8) := by decide
theorem test_decode_jle : decode [0b01111110#8, 0x05#8] = .instr (.jle 0x05#8) := by decide
theorem test_decode_jb : decode [0b01110010#8, 0x05#8] = .instr (.jb 0x05#8) := by decide
theorem test_decode_jbe : decode [0b01110110#8, 0x05#8] = .instr (.jbe 0x05#8) := by decide
theorem test_decode_jpe : decode [0b01111010#8, 0x05#8] = .instr (.jpe 0x05#8) := by decide
theorem test_decode_jo : decode [0b01110000#8, 0x05#8] = .instr (.jo 0x05#8) := by decide
theorem test_decode_js : decode [0b01111000#8, 0x05#8] = .instr (.js 0x05#8) := by decide
theorem test_decode_jnz : decode [0b01110101#8, 0x05#8] = .instr (.jnz 0x05#8) := by decide
theorem test_decode_jge : decode [0b01111101#8, 0x05#8] = .instr (.jge 0x05#8) := by decide
theorem test_decode_jg : decode [0b01111111#8, 0x05#8] = .instr (.jg 0x05#8) := by decide
theorem test_decode_jae : decode [0b01110011#8, 0x05#8] = .instr (.jae 0x05#8) := by decide
theorem test_decode_ja : decode [0b01110111#8, 0x05#8] = .instr (.ja 0x05#8) := by decide
theorem test_decode_jpo : decode [0b01111011#8, 0x05#8] = .instr (.jpo 0x05#8) := by decide
theorem test_decode_jno : decode [0b01110001#8, 0x05#8] = .instr (.jno 0x05#8) := by decide
theorem test_decode_movRmReg :
    decode [0b10001001#8, 0b00011110#8, 0x34#8, 0x12#8] =
      .instr (.movRmReg false .word 0b011#3 (.direct 0x1234#16)) := by decide
theorem test_decode_addRmReg :
    decode [0b00000001#8, 0b01001110#8, 0x04#8] =
      .instr (.addRmReg false .word 0b001#3 (.disp8 0b110#3 4#8)) := by decide
theorem test_decode_subRmReg :
    decode [0b00101010#8, 0b00000111#8] =
      .instr (.subRmReg true .byte 0b000#3 (.base 0b111#3)) := by decide
theorem test_decode_cmpRmReg :
    decode [0b00111010#8, 0b10000111#8, 0x18#8, 0xFC#8] =
      .instr (.cmpRmReg true .byte 0b000#3 (.disp16 0b111#3 0xFC18#16)) := by decide
theorem test_decode_addImmRm :
    decode [0b10000011#8, 0b00000110#8, 0x00#8, 0x00#8, 0x07#8] =
      .instr (.addImmRm true .word (.direct 0#16) (.imm8 7#8)) := by decide
theorem test_decode_subImmRm :
    decode [0b10000001#8, 0b01101100#8, 0x04#8, 0xE8#8, 0x03#8] =
      .instr (.subImmRm false .word (.disp8 0b100#3 4#8) (.imm16 1000#16)) := by decide
theorem test_decode_cmpImmRm :
    decode [0b10000000#8, 0b00111000#8, 0x0A#8] =
      .instr (.cmpImmRm false .byte (.base 0b000#3) (.imm8 10#8)) := by decide
theorem test_decode_addImmAcc :
    decode [0b00000101#8, 0xE8#8, 0x03#8] = .instr (.addImmAcc .word (.imm16 1000#16)) := by decide
theorem test_decode_subImmAcc :
    decode [0b00101100#8, 0x80#8] = .instr (.subImmAcc .byte (.imm8 0x80#8)) := by decide
theorem test_decode_cmpImmAcc :
    decode [0b00111101#8, 0x01#8, 0x00#8] = .instr (.cmpImmAcc .word (.imm16 1#16)) := by decide
theorem test_decode_movImmReg :
    decode [0b10110001#8, 0x0C#8] = .instr (.movImmReg .byte 0b001#3 (.imm8 12#8)) := by decide
theorem test_decode_movImmRm :
    decode [0b11000111#8, 0b01001111#8, 0xFF#8, 0x01#8, 0x00#8] =
      .instr (.movImmRm .word 0b001#3 (.disp8 0b111#3 0xFF#8) (.imm16 1#16)) := by decide
theorem test_decode_movMemToAcc :
    decode [0b10100000#8, 0x0A#8, 0x00#8] = .instr (.movMemToAcc .byte 10#16) := by decide
theorem test_decode_movAccToMem :
    decode [0b10100011#8, 0x34#8, 0x12#8] = .instr (.movAccToMem .word 0x1234#16) := by decide

/-- JNS of the 8086 is no row of JCCROM (spec/95_test_vectors.md 2.1). -/
theorem test_decode_79_unrecognised : decode [0x79#8, 0x05#8] = .unrecognised := by decide
/-- The segment moves are unrecognised (R161). -/
theorem test_decode_8C_unrecognised : decode [0x8C#8, 0xC0#8] = .unrecognised := by decide
theorem test_decode_undefined_sub_op : decode [0x80#8, 0x08#8] = .undefinedSubOp := by decide
theorem test_decode_truncated : decode [0x8B#8, 0x86#8, 0xE8#8] = .truncated := by decide
/-! ### One step of every instruction -/

theorem test_je : oneStep [0x74#8, 0xFE#8] 2 .done ["je -2"] = true := by decide
theorem test_je_zero_is_printed : oneStep [0x74#8, 0x00#8, 0x90#8] 2 .run ["je 0"] = true := by decide
theorem test_jl : oneStep [0x7C#8, 0x80#8] 2 .done ["jl -128"] = true := by decide
theorem test_jle : oneStep [0x7E#8, 0x80#8] 2 .done ["jle -128"] = true := by decide
theorem test_jb : oneStep [0x72#8, 0x80#8] 2 .done ["jb -128"] = true := by decide
theorem test_jbe : oneStep [0x76#8, 0x80#8] 2 .done ["jbe -128"] = true := by decide
theorem test_jpe : oneStep [0x7A#8, 0x80#8] 2 .done ["jpe -128"] = true := by decide
theorem test_jo : oneStep [0x70#8, 0x05#8] 2 .done ["jo 5"] = true := by decide
theorem test_js : oneStep [0x78#8, 0x80#8] 2 .done ["js -128"] = true := by decide
theorem test_jnz : oneStep [0x75#8, 0x05#8] 2 .done ["jnz 5"] = true := by decide
theorem test_jge : oneStep [0x7D#8, 0x80#8] 2 .done ["jge -128"] = true := by decide
theorem test_jg : oneStep [0x7F#8, 0x80#8] 2 .done ["jg -128"] = true := by decide
theorem test_jae : oneStep [0x73#8, 0x80#8] 2 .done ["jae -128"] = true := by decide
theorem test_ja : oneStep [0x77#8, 0x80#8] 2 .done ["ja -128"] = true := by decide
theorem test_jpo : oneStep [0x7B#8, 0x80#8] 2 .done ["jpo -128"] = true := by decide
theorem test_jno : oneStep [0x71#8, 0x80#8] 2 .done ["jno -128"] = true := by decide

theorem test_mov_rm_is_destination : oneStep [0x89#8, 0xD8#8] 2 .done ["mov ax, bx"] = true := by
  decide
theorem test_mov_reg_is_destination_zero_displacement :
    oneStep [0x8B#8, 0x56#8, 0x00#8] 3 .done ["mov dx, [bp]"] = true := by decide
theorem test_add_disp : oneStep [0x01#8, 0x4E#8, 0x04#8] 3 .done ["add [bp + 4], cx"] = true := by
  decide
theorem test_add_two_zero_bytes : oneStep [0#8, 0#8] 2 .done ["add [bx + si], al"] = true := by decide
theorem test_sub : oneStep [0x2B#8, 0x5E#8, 0x00#8] 3 .done ["sub bx, [bp]"] = true := by decide
theorem test_sub_regs : oneStep [0x29#8, 0xD8#8] 2 .done ["sub ax, bx"] = true := by decide
theorem test_cmp_negative_displacement :
    oneStep [0x3A#8, 0x87#8, 0x18#8, 0xFC#8] 4 .done ["cmp al, [bx + -1000]"] = true := by decide
theorem test_cmp_direct :
    oneStep [0x3B#8, 0x3E#8, 0x02#8, 0x00#8] 4 .done ["cmp di, [2]"] = true := by decide

theorem test_add_imm_direct :
    oneStep [0x83#8, 0x06#8, 0#8, 0#8, 0x07#8] 5 .done ["add [0], byte 7"] = true := by decide
theorem test_add_imm_signed_byte :
    oneStep [0x83#8, 0xC0#8, 0xFF#8] 3 .done ["add ax, byte -1"] = true := by decide
theorem test_sub_imm_word :
    oneStep [0x81#8, 0x6C#8, 0x04#8, 0xE8#8, 0x03#8] 5 .done ["sub [si + 4], word 1000"] = true := by
  decide
theorem test_cmp_imm_longest :
    oneStep [0x81#8, 0x3E#8, 0x34#8, 0x12#8, 0x00#8, 0x80#8] 6 .done
      ["cmp [4660], word 32768"] = true := by decide
theorem test_cmp_imm_keyword_before_immediate :
    oneStep [0x80#8, 0x38#8, 0x0A#8] 3 .done ["cmp [bx + si], byte 10"] = true := by decide

theorem test_add_acc : oneStep [0x04#8, 0xFF#8] 2 .done ["add al, -1"] = true := by decide
theorem test_add_acc_word : oneStep [0x05#8, 0xFF#8, 0xFF#8] 3 .done ["add ax, 65535"] = true := by
  decide
theorem test_sub_acc : oneStep [0x2D#8, 0x00#8, 0x80#8] 3 .done ["sub ax, 32768"] = true := by decide
theorem test_cmp_acc : oneStep [0x3C#8, 0x00#8] 2 .done ["cmp al, 0"] = true := by decide

theorem test_mov_imm_reg : oneStep [0xB1#8, 0x0C#8] 2 .done ["mov cl, 12"] = true := by decide
theorem test_mov_imm_reg_word :
    oneStep [0xBF#8, 0xFF#8, 0xFF#8] 3 .done ["mov di, 65535"] = true := by decide
theorem test_mov_imm_rm :
    oneStep [0xC6#8, 0x46#8, 0xFE#8, 0x80#8] 4 .done ["mov [bp + -2], byte -128"] = true := by decide
theorem test_mov_imm_rm_middle_field_ignored :
    oneStep [0xC6#8, 0x0F#8, 0x05#8] 3 .done ["mov [bx], byte 5"] = true := by decide
theorem test_mov_mem_to_acc :
    oneStep [0xA1#8, 0xFF#8, 0xFF#8] 3 .done ["mov ax, [65535]"] = true := by decide
theorem test_mov_acc_to_mem : oneStep [0xA2#8, 0#8, 0#8] 3 .done ["mov [0], al"] = true := by decide

theorem test_skip_unrecognised_last : oneStep [0xFF#8] 1 .done [] = true := by decide
theorem test_skip_undefined_sub_op : oneStep [0x80#8, 0x08#8] 1 .run [] = true := by decide
theorem test_fault_jump : oneFault [0x74#8] = true := by decide
theorem test_fault_disp16 : oneFault [0x8B#8, 0x86#8, 0xE8#8] = true := by decide
theorem test_fault_arith_imm : oneFault [0x83#8, 0x06#8, 0#8, 0#8] = true := by decide
theorem test_fault_acc_word : oneFault [0x05#8, 0xE8#8] = true := by decide
theorem test_fault_mov_imm_rm : oneFault [0xC7#8, 0x06#8, 0x34#8, 0x12#8, 0x05#8] = true := by decide
theorem test_fault_mov_mem_acc : oneFault [0xA1#8, 0xFF#8] = true := by decide

/-- A table word placed after reset is what the next step runs (`mov ax, bx`, word 0xD889). -/
theorem test_withFetchWord :
    (match step (State.reset.withFetchWord 16 0xD889) with
      | .next t => t.out == ["mov ax, bx".toList] && t.pc == 2
      | .fault _ => false
      | .refused _ => false) = true := by decide
theorem test_decodeTableWord :
    decodeTableWord 16 0xD889 = some (.movRmReg false .word 3#3 (.reg 0#3)) := by decide

/-! ### A witness for the hypotheses of every statement that has some -/

theorem test_witness_StartPassLeavesResetValues : State.reset.status ≠ .run := by decide

theorem test_witness_HostMovesOnlyOutsideRun :
    (boot [0x90#8]).status = .run ∧ State.reset.status ≠ .run := by decide

theorem test_witness_MemReadIsBoundsChecked :
    (2 + 1 > (boot [0x34#8, 0x12#8]).len) ∧ (1 + 1 ≤ (boot [0x34#8, 0x12#8]).len) ∧
    (1 + 2 > (boot [0x34#8, 0x12#8]).len) ∧ (0 + 2 ≤ (boot [0x34#8, 0x12#8]).len) := by decide

theorem test_witness_LittleEndianRoundTrip :
    memRead2 (boot [0x34#8, 0x12#8]) 0 = .ok 0x1234#16 := rfl

theorem test_witness_ImageIsReadOnly :
    (∃ t, step (boot [0x74#8, 0xFE#8]) = .next t) ∧
    (∃ t, exec (.je 0xFE#8) (boot [0x74#8, 0xFE#8]) = .next t) := ⟨⟨_, rfl⟩, ⟨_, rfl⟩⟩

/-- One image written in two orders. -/
theorem test_witness_ImageListingIsCanonical :
    Memory.wf (Memory.write (Memory.write [] 0 1#8) 5 2#8) = true ∧
    Memory.wf (Memory.write (Memory.write [] 5 2#8) 0 1#8) = true ∧
    ∀ a, Memory.read (Memory.write (Memory.write [] 0 1#8) 5 2#8) a =
      Memory.read (Memory.write (Memory.write [] 5 2#8) 0 1#8) a :=
  ⟨by decide, by decide, fun _ => rfl⟩

theorem test_witness_DecodeOfEncode :
    (Instr.cmpImmRm false .word (.direct 0xFFFF#16) (.imm16 0x8000#16)).wf = true ∧
    (Instr.movImmRm .byte 7#3 (.disp16 6#3 0#16) (.imm8 0#8)).wf = true := by decide

theorem test_witness_EncodeOfDecode :
    decode [0xC7#8, 0x4F#8, 0xFF#8, 0x01#8, 0x00#8, 0x90#8] =
      .instr (.movImmRm .word 1#3 (.disp8 7#3 0xFF#8) (.imm16 1#16)) := by decide

theorem test_witness_TerminalStatusIsIdle :
    State.reset.status = .done ∧ (faultedTo (boot [0x74#8])).status = .faultOob := by decide

theorem test_witness_StepRunsTheDecodedInstruction :
    (boot [0x74#8, 0xFE#8]).status = .run ∧ decode (fetch (boot [0x74#8, 0xFE#8])) = .instr (.je 0xFE#8) := by
  decide

theorem test_witness_EncodedInstructionAtCursorRuns :
    (boot [0x74#8, 0xFE#8]).status = .run ∧ (Instr.je 0xFE#8).wf = true ∧
    (boot [0x74#8, 0xFE#8]).pc + (Instr.je 0xFE#8).length ≤ (boot [0x74#8, 0xFE#8]).len ∧
    ∀ k, k < (Instr.je 0xFE#8).length → (encode (Instr.je 0xFE#8))[k]? =
      some (byteAt (boot [0x74#8, 0xFE#8]) ((boot [0x74#8, 0xFE#8]).pc + k)) := by decide

theorem test_witness_PlacedTableWordRuns :
    Memory.wf State.reset.img = true ∧
    decodeTableWord 16 0xD889 = some (.movRmReg false .word 3#3 (.reg 0#3)) := by decide

theorem test_witness_UnrecognisedByteIsSkipped :
    (boot [0x79#8, 0x05#8]).status = .run ∧ (boot [0x79#8, 0x05#8]).pc < (boot [0x79#8, 0x05#8]).len ∧
    ∀ r ∈ classrom, rowMatches (byteAt (boot [0x79#8, 0x05#8]) (boot [0x79#8, 0x05#8]).pc) r = false := by
  decide

theorem test_witness_UnrecognisedLastByteEndsThePass :
    (boot [0xFF#8]).status = .run ∧ (boot [0xFF#8]).pc + 1 = (boot [0xFF#8]).len ∧
    classify (byteAt (boot [0xFF#8]) (boot [0xFF#8]).pc) = none := by decide

theorem test_witness_RecognisedLastByteFaults :
    (boot [0x74#8]).status = .run ∧ (boot [0x74#8]).pc + 1 = (boot [0x74#8]).len ∧
    classify (byteAt (boot [0x74#8]) (boot [0x74#8]).pc) = some (.jcc .e) := by decide

/-- A fresh pass over an image with a recognised first byte meets `Leads`. -/
theorem leads_boot {bytes : List Byte} {v : Variant}
    (h : (boot bytes).status = .run ∧ (boot bytes).pc < (boot bytes).len ∧
      classify (byteAt (boot bytes) (boot bytes).pc) = some v) : Leads (boot bytes) v := h

/-- Both cases of `DecodesTo` at their boundary: `full` just fits, `short` lacks its last byte. -/
def Fits (n : Nat) (full short : List Byte) : Prop :=
  (boot full).pc + n = (boot full).len ∧ (boot short).len + 1 = (boot short).pc + n

theorem test_witness_JumpDecoderRule :
    Leads (boot [0x71#8]) (.jcc .no) ∧ Leads (boot [0x71#8, 0x80#8]) (.jcc .no) ∧
    (boot [0x71#8]).pc + 1 = (boot [0x71#8]).len ∧
    (boot [0x71#8, 0x80#8]).pc + 1 < (boot [0x71#8, 0x80#8]).len :=
  ⟨leads_boot (by decide), leads_boot (by decide), by decide, by decide⟩

theorem test_witness_JeRule :
    byteAt (boot [0x74#8]) (boot [0x74#8]).pc = 0b01110100#8 ∧
    (boot [0x74#8]).pc + 1 ≥ (boot [0x74#8]).len ∧ (boot [0x74#8]).pc < (boot [0x74#8]).len ∧
    byteAt (boot [0x74#8, 0xFE#8]) (boot [0x74#8, 0xFE#8]).pc = 0b01110100#8 ∧
    (boot [0x74#8, 0xFE#8]).pc + 1 < (boot [0x74#8, 0xFE#8]).len := by decide

theorem test_witness_FifteenJumpBytes :
    (∀ p ∈ jumpTable, (boot [p.1, 0x80#8]).status = .run ∧
      (boot [p.1, 0x80#8]).pc < (boot [p.1, 0x80#8]).len ∧
      byteAt (boot [p.1, 0x80#8]) (boot [p.1, 0x80#8]).pc = p.1) ∧
    Fits 2 [0x7C#8, 0x80#8] [0x7C#8] := ⟨by decide, by unfold Fits; decide⟩

/-- Every case: no mod-reg-rm byte; a displacement byte missing; all there; both values of `d`. -/
theorem test_witness_RmRegDecoderRule :
    Leads (boot [0x89#8]) .movRmReg ∧ (boot [0x89#8]).len < (boot [0x89#8]).pc + 2 ∧
    Leads (boot [0x8B#8, 0x86#8, 0xE8#8]) .movRmReg ∧
    Leads (boot [0x8B#8, 0x86#8, 0xE8#8, 0x03#8]) .movRmReg ∧
    Fits (2 + dispBytes (boot [0x8B#8, 0x86#8, 0xE8#8])) [0x8B#8, 0x86#8, 0xE8#8, 0x03#8]
      [0x8B#8, 0x86#8, 0xE8#8] ∧
    bitOf (byteAfter (boot [0x8B#8, 0xC0#8]) 0) 1 = true ∧
    bitOf (byteAfter (boot [0x89#8, 0xC0#8]) 0) 1 = false ∧
    Leads (boot [0x00#8, 0x00#8]) .addRmReg ∧ Leads (boot [0x29#8, 0xD8#8]) .subRmReg ∧
    Leads (boot [0x39#8, 0xCB#8]) .cmpRmReg :=
  ⟨leads_boot (by decide), by decide, leads_boot (by decide), leads_boot (by decide),
    by unfold Fits; decide, by decide, by decide, leads_boot (by decide), leads_boot (by decide),
    leads_boot (by decide)⟩

theorem test_witness_MovRmRegRule :
    (byteAt (boot [0x89#8, 0xD8#8]) (boot [0x89#8, 0xD8#8]).pc).extractLsb' 2 6 = 0b100010#6 ∧
    byteAt (boot [0x8C#8, 0xC0#8]) (boot [0x8C#8, 0xC0#8]).pc = 0x8C#8 ∧
    byteAt (boot [0x8E#8]) (boot [0x8E#8]).pc = 0x8E#8 ∧
    (boot [0x8E#8]).status = .run ∧ (boot [0x8E#8]).pc < (boot [0x8E#8]).len ∧
    (boot [0x89#8, 0xD8#8]).pc + 2 ≤ (boot [0x89#8, 0xD8#8]).len := by decide

/-- The three sub-ops, one and two immediate bytes, whole and one byte short. -/
theorem test_witness_ArithImmDecoderRule :
    Leads (boot [0x83#8, 0xC0#8, 0x07#8]) .arithImmRm ∧
    regField (boot [0x83#8, 0xC0#8, 0x07#8]) = 0b000#3 ∧
    regField (boot [0x81#8, 0xE8#8, 0xE8#8, 0x03#8]) = 0b101#3 ∧
    regField (boot [0x80#8, 0xF9#8, 0x05#8]) = 0b111#3 ∧
    (boot [0x83#8, 0xC0#8]).pc + 2 ≤ (boot [0x83#8, 0xC0#8]).len ∧
    Fits 3 [0x83#8, 0xC0#8, 0x07#8] [0x83#8, 0xC0#8] ∧
    Fits 4 [0x81#8, 0xE8#8, 0xE8#8, 0x03#8] [0x81#8, 0xE8#8, 0xE8#8] :=
  ⟨leads_boot (by decide), by decide, by decide, by decide, by decide, by unfold Fits; decide,
    by unfold Fits; decide⟩

theorem test_witness_UndefinedSubOpIsSkipped :
    Leads (boot [0x80#8]) .arithImmRm ∧ (boot [0x80#8]).len < (boot [0x80#8]).pc + 2 ∧
    Leads (boot [0x80#8, 0x08#8]) .arithImmRm ∧
    (boot [0x80#8, 0x08#8]).pc + 2 ≤ (boot [0x80#8, 0x08#8]).len ∧
    regField (boot [0x80#8, 0x08#8]) = 0b001#3 ∧ regField (boot [0x80#8, 0x30#8]) = 0b110#3 :=
  ⟨leads_boot (by decide), by decide, leads_boot (by decide), by decide, by decide, by decide⟩

theorem test_witness_ImmAccDecoderRule :
    Leads (boot [0x04#8, 0x07#8]) .addImmAcc ∧ Leads (boot [0x2D#8, 0x00#8, 0x80#8]) .subImmAcc ∧
    Leads (boot [0x3C#8]) .cmpImmAcc ∧ Fits 2 [0x04#8, 0x07#8] [0x04#8] ∧
    Fits 3 [0x05#8, 0xE8#8, 0x03#8] [0x05#8, 0xE8#8] :=
  ⟨leads_boot (by decide), leads_boot (by decide), leads_boot (by decide), by unfold Fits; decide,
    by unfold Fits; decide⟩

theorem test_witness_MovImmRegDecoderRule :
    Leads (boot [0xB0#8, 0x7F#8]) .movImmReg ∧ Leads (boot [0xBF#8, 0xFF#8, 0xFF#8]) .movImmReg ∧
    Fits 2 [0xB0#8, 0x7F#8] [0xB0#8] ∧ Fits 3 [0xBF#8, 0xFF#8, 0xFF#8] [0xBF#8, 0xFF#8] :=
  ⟨leads_boot (by decide), leads_boot (by decide), by unfold Fits; decide, by unfold Fits; decide⟩

theorem test_witness_MovImmRmDecoderRule :
    Leads (boot [0xC7#8]) .movImmRm ∧ (boot [0xC7#8]).len < (boot [0xC7#8]).pc + 2 ∧
    Leads (boot [0xC7#8, 0x06#8, 0x0A#8, 0x00#8, 0xFF#8, 0xFF#8]) .movImmRm ∧
    Fits 6 [0xC7#8, 0x06#8, 0x0A#8, 0x00#8, 0xFF#8, 0xFF#8] [0xC7#8, 0x06#8, 0x0A#8, 0x00#8, 0xFF#8] ∧
    Fits 3 [0xC6#8, 0x07#8, 0x07#8] [0xC6#8, 0x07#8] :=
  ⟨leads_boot (by decide), by decide, leads_boot (by decide), by unfold Fits; decide,
    by unfold Fits; decide⟩

theorem test_witness_MovMemAccDecoderRule :
    Leads (boot [0xA0#8, 0x0A#8, 0x00#8]) .movMemToAcc ∧
    Leads (boot [0xA3#8, 0x34#8, 0x12#8]) .movAccToMem ∧
    Fits 3 [0xA1#8, 0xFF#8, 0xFF#8] [0xA1#8, 0xFF#8] :=
  ⟨leads_boot (by decide), leads_boot (by decide), by unfold Fits; decide⟩

/-! The completion statements ask only that the bytes fit; each is met with nothing to spare. -/

theorem test_witness_JumpsComplete :
    (boot [0x74#8, 0xFE#8]).pc + 2 ≤ (boot [0x74#8, 0xFE#8]).len := by decide

theorem test_witness_RmRegFormsComplete :
    (boot [0x89#8, 0xD8#8]).pc + (2 + (RmField.reg 0#3).dispLen) ≤ (boot [0x89#8, 0xD8#8]).len ∧
    (boot [0x89#8, 0x1E#8, 0x34#8, 0x12#8]).pc + (2 + (RmField.direct 0x1234#16).dispLen) ≤
      (boot [0x89#8, 0x1E#8, 0x34#8, 0x12#8]).len := by decide

theorem test_witness_ByteImmediateToRmCompletes :
    (boot [0x83#8, 0x06#8, 0#8, 0#8, 7#8]).pc + (3 + (RmField.direct 0#16).dispLen) ≤
      (boot [0x83#8, 0x06#8, 0#8, 0#8, 7#8]).len := by decide

theorem test_witness_WordImmediateToRmCompletes :
    (boot [0x81#8, 0xC0#8, 0xE8#8, 0x03#8]).pc + (4 + (RmField.reg 0#3).dispLen) ≤
      (boot [0x81#8, 0xC0#8, 0xE8#8, 0x03#8]).len := by decide

theorem test_witness_ImmediateToRegisterCompletes :
    (boot [0x04#8, 0x07#8]).pc + 2 ≤ (boot [0x04#8, 0x07#8]).len ∧
    (boot [0x05#8, 0xE8#8, 0x03#8]).pc + 3 ≤ (boot [0x05#8, 0xE8#8, 0x03#8]).len := by decide

theorem test_witness_MovMemAccCompletes :
    (boot [0xA0#8, 0x0A#8, 0x00#8]).pc + 3 ≤ (boot [0xA0#8, 0x0A#8, 0x00#8]).len := by decide

theorem test_witness_EveryFormTrapsPastTheEnd :
    (boot [0x74#8]).len < (boot [0x74#8]).pc + (Instr.je 0xFE#8).length := by decide

theorem test_witness_InstructionFrame :
    exec (.je 0xFE#8) (boot [0x74#8, 0xFE#8]) =
      .next (decodedTo "je -2".toList 2 (boot [0x74#8, 0xFE#8])) ∧
    exec (.je 0xFE#8) (boot [0x74#8]) = .next (faultedTo (boot [0x74#8])) := ⟨rfl, rfl⟩

theorem test_witness_FaultsExactlyWhenBytesAreMissing :
    (boot [0x74#8]).status = .run ∧ (boot [0x74#8]).pc < (boot [0x74#8]).len ∧
    (boot [0x74#8, 0xFE#8]).status = .run ∧
    (boot [0x74#8, 0xFE#8]).pc < (boot [0x74#8, 0xFE#8]).len := by decide

theorem test_witness_FaultAtIsWrittenByAFaultOnly :
    (∃ t, step (boot [0x74#8, 0xFE#8]) = .next t ∧ t.faultAt = (boot [0x74#8, 0xFE#8]).faultAt) ∧
    step (boot [0x74#8]) = .next (faultedTo (boot [0x74#8])) := ⟨⟨_, rfl, rfl⟩, rfl⟩

theorem test_witness_DirectAndRegisterOperands : (0b101#3 : BitVec 3) ≠ 0b110#3 := by decide

theorem test_witness_StepKeepsPassInv :
    PassInv (boot [0x74#8, 0xFE#8, 0x90#8]) ∧
    step (boot [0x74#8, 0xFE#8, 0x90#8]) =
      .next (decodedTo "je -2".toList 2 (boot [0x74#8, 0xFE#8, 0x90#8])) := ⟨by decide, rfl⟩

theorem test_witness_StepKeepsLinesInGrammar :
    LinesWf (boot [0x74#8, 0xFE#8]) ∧ ∃ t, step (boot [0x74#8, 0xFE#8]) = .next t ∧ t.out ≠ [] :=
  ⟨fun l h => absurd h (List.not_mem_nil (a := l)), ⟨_, rfl, by decide⟩⟩

/-- Every case: still running, done, faulted, terminal already. -/
theorem test_witness_StatusTransitions :
    PassInv (boot [0x90#8, 0x90#8]) ∧ (boot [0x90#8, 0x90#8]).status = .run ∧
    step (boot [0x90#8, 0x90#8]) = .next (skippedTo (boot [0x90#8, 0x90#8])) ∧
    PassInv (boot [0x90#8]) ∧ step (boot [0x90#8]) = .next (skippedTo (boot [0x90#8])) ∧
    PassInv (boot [0x74#8]) ∧ step (boot [0x74#8]) = .next (faultedTo (boot [0x74#8])) ∧
    PassInv State.reset ∧ State.reset.status ≠ .run ∧ step State.reset = .next State.reset :=
  ⟨by decide, by decide, rfl, by decide, rfl, by decide, rfl, by decide, by decide, rfl⟩

theorem test_witness_OutIsAppendOnly :
    (∃ t, step (boot [0x74#8, 0xFE#8]) = .next t ∧ t.out = ["je -2".toList]) ∧
    (∃ t, step (boot [0x90#8]) = .next t ∧ t.out = []) := ⟨⟨_, rfl, by decide⟩, ⟨_, rfl, by decide⟩⟩

/-- Two passes whose images differ beyond the six bytes, with different lines already out. -/
theorem test_witness_StepDependsOnSixBytesOnly :
    let s := boot [0x74#8, 0xFE#8, 0#8, 0#8, 0#8, 0#8, 1#8]
    let u := { boot [0x74#8, 0xFE#8, 0#8, 0#8, 0#8, 0#8, 2#8] with out := ["je 0".toList] }
    s ≠ u ∧ s.pc = u.pc ∧ s.len = u.len ∧ s.status = u.status ∧
    (∀ k, k ≤ 5 → s.pc + k < s.len → byteAt s (s.pc + k) = byteAt u (u.pc + k)) ∧
    startPass [0x90#8] State.reset = some (boot [0x90#8]) ∧
    startPass [0x90#8] (faultedTo (boot [0x74#8])) = some (boot [0x90#8]) := by decide

theorem test_witness_PassTerminates : PassInv (boot [0x80#8, 0x88#8, 0xC1#8]) := by decide

theorem test_witness_LinesAtMostHalfTheImage :
    startPass [0x74#8, 0xFE#8] State.reset = some (boot [0x74#8, 0xFE#8]) ∧
    core.run 1 (boot [0x74#8, 0xFE#8]) =
      .next (decodedTo "je -2".toList 2 (boot [0x74#8, 0xFE#8])) := ⟨by decide, rfl⟩

end Sys2Proof.Tests
end

section
/-! PROOFS. The image and its read primitive (spec/20_memory.md R41 to R44): the little-endian law,
the bounds check of `MemRead`, and that no instruction and no step writes the image. -/

namespace Sys2Proof.Proofs

open Sys2Proof.Machine Sys2Proof.Safety Sys2Proof.Laws

/-! ### Byte order (R43) -/

/-- Two bytes fit in 16 bits, so nothing wraps. -/
@[simp] theorem le16_toNat (lo hi : Byte) : (le16 lo hi).toNat = lo.toNat + 256 * hi.toNat := by
  have hlo := lo.isLt
  have hhi := hi.isLt
  rw [le16, BitVec.toNat_ofNat]
  omega

/-- The shifted high byte and the low byte share no bit, so their sum is their bitwise or. -/
theorem le16_eq_or (lo hi : Byte) : le16 lo hi = lo.setWidth 16 ||| (hi.setWidth 16 <<< 8) := by
  have hlo := lo.isLt
  have hhi := hi.isLt
  have hsum : hi.toNat <<< 8 + lo.toNat = hi.toNat <<< 8 ||| lo.toNat :=
    Nat.shiftLeft_add_eq_or_of_lt hlo hi.toNat
  have hshift : hi.toNat <<< 8 = 256 * hi.toNat := by rw [Nat.shiftLeft_eq]; omega
  apply BitVec.eq_of_toNat_eq
  calc (le16 lo hi).toNat
      = hi.toNat <<< 8 + lo.toNat := by rw [le16_toNat, hshift]; omega
    _ = lo.toNat ||| hi.toNat <<< 8 := by rw [hsum, Nat.or_comm]
    _ = (lo.setWidth 16 ||| (hi.setWidth 16 <<< 8)).toNat := by
      rw [BitVec.toNat_or, BitVec.toNat_shiftLeft, BitVec.toNat_setWidth, BitVec.toNat_setWidth,
        Nat.mod_eq_of_lt (by omega : lo.toNat < 2 ^ 16),
        Nat.mod_eq_of_lt (by omega : hi.toNat < 2 ^ 16),
        Nat.mod_eq_of_lt (by omega : hi.toNat <<< 8 < 2 ^ 16)]

theorem le16_mod (lo hi : Byte) : (le16 lo hi).toNat % 256 = lo.toNat := by
  have hlo := lo.isLt
  rw [le16_toNat]
  omega

theorem le16_div (lo hi : Byte) : (le16 lo hi).toNat / 256 = hi.toNat := by
  have hlo := lo.isLt
  rw [le16_toNat]
  omega

@[simp] theorem loByte_le16 (lo hi : Byte) : loByte (le16 lo hi) = lo := by
  rw [loByte, le16_mod, BitVec.ofNat_toNat, BitVec.setWidth_eq]

@[simp] theorem hiByte_le16 (lo hi : Byte) : hiByte (le16 lo hi) = hi := by
  rw [hiByte, le16_div, BitVec.ofNat_toNat, BitVec.setWidth_eq]

@[simp] theorem bytes16_le16 (lo hi : Byte) : bytes16 (le16 lo hi) = [lo, hi] := by
  rw [bytes16, loByte_le16, hiByte_le16]

/-! ### MemRead (R44) -/

/-- A 2-byte read that answers has both its bytes inside the image, and answers their value. -/
theorem memRead2_eq_ok_iff {s : State} {a : Nat} {v : Word16} :
    memRead2 s a = .ok v ↔ a + 1 < s.len ∧ v = le16 (byteAt s a) (byteAt s (a + 1)) := by
  rcases Nat.lt_or_ge (a + 1) s.len with h | h
  · rw [memRead2_inside h, Except.ok.injEq]
    exact ⟨fun e => ⟨h, e.symm⟩, fun e => e.2.symm⟩
  · rw [memRead2_outside h]
    exact ⟨nofun, fun e => absurd e.1 (Nat.not_lt.mpr h)⟩

/-! ### Nothing writes the image (R41) -/

/-- `t` has the image of `s`: the same `LEN`, the same listing, the same byte at every offset. -/
def KeepsImage (s t : State) : Prop :=
  t.len = s.len ∧ t.img = s.img ∧ ∀ a, byteAt t a = byteAt s a

/-- `IMG[a]` is a function of the listing alone. -/
theorem KeepsImage.of_fields {s t : State} (hlen : t.len = s.len) (himg : t.img = s.img) :
    KeepsImage s t :=
  ⟨hlen, himg, fun a => by rw [byteAt, byteAt, himg]⟩

theorem KeepsImage.refl (s : State) : KeepsImage s s := .of_fields rfl rfl

theorem keepsImage_decodedTo (line : Line) (n : Nat) (s : State) :
    KeepsImage s (decodedTo line n s) := .of_fields rfl rfl

theorem keepsImage_skippedTo (s : State) : KeepsImage s (skippedTo s) := .of_fields rfl rfl

theorem keepsImage_faultedTo (s : State) : KeepsImage s (faultedTo s) := .of_fields rfl rfl

/-- Everything an instruction can do, once: its line and its bytes when they fit, else the exception. -/
theorem exec_cases (i : Instr) (s : State) :
    (s.pc + i.length ≤ s.len ∧
      exec i s = .next (decodedTo (render (recordOf i)) i.length s)) ∨
    (s.len < s.pc + i.length ∧ exec i s = .next (faultedTo s)) := by
  rw [exec_eq_retire]
  rcases retire_cases (recordOf i) i.length s with ⟨hfit, e⟩ | ⟨hout, e⟩
  · exact .inl ⟨hfit, by rw [e]⟩
  · exact .inr ⟨hout, by rw [e]⟩

theorem exec_keepsImage {i : Instr} {s t : State} (h : exec i s = .next t) : KeepsImage s t := by
  rcases exec_cases i s with ⟨-, e⟩ | ⟨-, e⟩ <;> cases e.symm.trans h
  · exact keepsImage_decodedTo _ _ s
  · exact keepsImage_faultedTo s

theorem step_keepsImage {s t : State} (h : step s = .next t) : KeepsImage s t := by
  rcases step_cases s with ⟨-, e⟩ | ⟨-, _, -, -, e⟩ | ⟨-, -, e⟩ | ⟨-, e⟩ <;>
    cases e.symm.trans h
  · exact .refl s
  · exact keepsImage_decodedTo _ _ s
  · exact keepsImage_skippedTo s
  · exact keepsImage_faultedTo s

/-! ### The obligations -/

/-- Settles O6: every outcome of `step_cases` and of `exec_cases` keeps the image. -/
theorem imageIsReadOnly : Obligations.ImageIsReadOnly :=
  ⟨fun _ _ h => step_keepsImage h, fun _ _ _ h => exec_keepsImage h⟩

/-- Settles O4: inside and outside the image at each width; the value of a 2-byte read is that of
`le16`, which does not wrap. -/
theorem memReadIsBoundsChecked : Obligations.MemReadIsBoundsChecked := fun s a =>
  ⟨fun h => memRead1_outside (s := s) (a := a) (by omega),
    fun h => memRead1_inside h,
    fun h => memRead2_outside (s := s) (a := a) (by omega),
    fun h => ⟨_, memRead2_inside h, le16_toNat _ _⟩⟩

/-- Settles O5: the bitwise form of `le16`, and its two bytes back from a read that answered. -/
theorem littleEndianRoundTrip : Obligations.LittleEndianRoundTrip := by
  refine ⟨le16_eq_or, fun s a v h => ?_⟩
  obtain ⟨-, rfl⟩ := memRead2_eq_ok_iff.mp h
  exact ⟨le16_toNat _ _, le16_mod _ _, le16_div _ _, bytes16_le16 _ _⟩

end Sys2Proof.Proofs
end

section
/-! PROOFS. The classifier's step (spec/40_classifier.md R90 to R99): its four outcomes exclude each
other, an unrecognised byte is skipped, and what a step does depends on the cursor, `LEN`, `STATUS` and
the fetched bytes only. -/

namespace Sys2Proof.Proofs

open Sys2Proof.Machine Sys2Proof.Safety Sys2Proof.Claims Sys2Proof.Laws

/-! ### Lengths (R60, R70) -/

/-- The lemmas of `Laws.LengthRange`, one per constructor, put together. -/
theorem lengthRange : ∀ i : Instr, LengthRange.Statement i
  | .je d => LengthRange.je d
  | .jl d => LengthRange.jl d
  | .jle d => LengthRange.jle d
  | .jb d => LengthRange.jb d
  | .jbe d => LengthRange.jbe d
  | .jpe d => LengthRange.jpe d
  | .jo d => LengthRange.jo d
  | .js d => LengthRange.js d
  | .jnz d => LengthRange.jnz d
  | .jge d => LengthRange.jge d
  | .jg d => LengthRange.jg d
  | .jae d => LengthRange.jae d
  | .ja d => LengthRange.ja d
  | .jpo d => LengthRange.jpo d
  | .jno d => LengthRange.jno d
  | .movRmReg d w reg rm => LengthRange.movRmReg d w reg rm
  | .addRmReg d w reg rm => LengthRange.addRmReg d w reg rm
  | .subRmReg d w reg rm => LengthRange.subRmReg d w reg rm
  | .cmpRmReg d w reg rm => LengthRange.cmpRmReg d w reg rm
  | .addImmRm sx w rm imm => LengthRange.addImmRm sx w rm imm
  | .subImmRm sx w rm imm => LengthRange.subImmRm sx w rm imm
  | .cmpImmRm sx w rm imm => LengthRange.cmpImmRm sx w rm imm
  | .addImmAcc w imm => LengthRange.addImmAcc w imm
  | .subImmAcc w imm => LengthRange.subImmAcc w imm
  | .cmpImmAcc w imm => LengthRange.cmpImmAcc w imm
  | .movImmReg w reg imm => LengthRange.movImmReg w reg imm
  | .movImmRm w xxx rm imm => LengthRange.movImmRm w xxx rm imm
  | .movMemToAcc w a => LengthRange.movMemToAcc w a
  | .movAccToMem w a => LengthRange.movAccToMem w a

theorem two_le_length (i : Instr) : 2 ≤ i.length := (lengthRange i).1

/-! ### The four outcomes (R90): the cursor's move and `STATUS` tell them apart -/

theorem isDecoded_pc {s t : State} (h : IsDecoded s t) : s.pc + 2 ≤ t.pc := by
  obtain ⟨-, i, line, -, hlen, -, rfl⟩ := h
  exact Nat.add_le_add_left hlen s.pc

theorem isSkipped_pc {s t : State} (h : IsSkipped s t) : t.pc = s.pc + 1 := by
  obtain ⟨-, rfl⟩ := h
  rfl

theorem isFaulted_pc {s t : State} (h : IsFaulted s t) : t.pc = s.pc := by
  obtain ⟨-, rfl⟩ := h
  rfl

theorem not_isSkipped_of_isDecoded {s t : State} (hd : IsDecoded s t) : ¬IsSkipped s t := fun hs => by
  have := isDecoded_pc hd
  have := isSkipped_pc hs
  omega

theorem not_isFaulted_of_isDecoded {s t : State} (hd : IsDecoded s t) : ¬IsFaulted s t := fun hf => by
  have := isDecoded_pc hd
  have := isFaulted_pc hf
  omega

theorem not_isFaulted_of_isSkipped {s t : State} (hs : IsSkipped s t) : ¬IsFaulted s t := fun hf => by
  have := isSkipped_pc hs
  have := isFaulted_pc hf
  omega

theorem not_isIdle_of_run {s t : State} (h : s.status = .run) : ¬IsIdle s t := fun hi => hi.1 h

/-- The step is total, and at least one of the four outcomes describes it. -/
theorem step_outcome (s : State) :
    ∃ t, step s = .next t ∧ (IsDecoded s t ∨ IsSkipped s t ∨ IsFaulted s t ∨ IsIdle s t) := by
  rcases step_cases s with ⟨h, e⟩ | ⟨h, i, hd, hfit, e⟩ | ⟨h, -, e⟩ | ⟨h, e⟩
  · exact ⟨_, e, .inr (.inr (.inr ⟨h, rfl⟩))⟩
  · exact ⟨_, e, .inl ⟨h, i, _, hd, two_le_length i, hfit, rfl⟩⟩
  · exact ⟨_, e, .inr (.inl ⟨h, rfl⟩)⟩
  · exact ⟨_, e, .inr (.inr (.inl ⟨h, rfl⟩))⟩

/-! ### An unrecognised leading byte (R93, R95) -/

theorem classify_eq_none_iff {b : Byte} :
    classify b = none ↔ ∀ r ∈ classrom, rowMatches b r = false := by
  simp only [classify, Option.map_eq_none_iff, List.find?_eq_none, Bool.not_eq_true]

/-- Below `LEN` the fetch window begins with the byte at the cursor. -/
theorem fetch_cons {s : State} (h : s.pc < s.len) :
    fetch s = byteAt s s.pc :: bytesFrom s (maxLength - 1) (s.pc + 1) :=
  bytesFrom_cons (maxLength - 1) h

theorem decode_cons_of_classify_none {b : Byte} (bs : List Byte) (h : classify b = none) :
    decode (b :: bs) = .unrecognised := by
  rw [decode, h]

theorem step_skips_of_classify_none {s : State} (hrun : s.status = .run) (hin : s.pc < s.len)
    (h : classify (byteAt s s.pc) = none) : step s = .next (skippedTo s) := by
  rw [step_run hrun, fetch_cons hin, decode_cons_of_classify_none _ h, runDecoded, skip_one_eq]

/-! ### What a step depends on (R99) -/

/-- Two states with one `LEN` and the same bytes in a window read the same window. -/
theorem bytesFrom_congr {s u : State} (hlen : s.len = u.len) (n a : Nat)
    (h : ∀ k, k < n → a + k < s.len → byteAt s (a + k) = byteAt u (a + k)) :
    bytesFrom s n a = bytesFrom u n a := by
  induction n generalizing a with
  | zero => rfl
  | succ n ih =>
    by_cases ha : a < s.len
    · have hhead : byteAt s a = byteAt u a := h 0 n.succ_pos ha
      have htail : bytesFrom s n (a + 1) = bytesFrom u n (a + 1) := ih (a + 1) fun k hk hin => by
        have hshift : a + 1 + k = a + (k + 1) := by omega
        rw [hshift] at hin ⊢
        exact h (k + 1) (Nat.succ_lt_succ hk) hin
      rw [bytesFrom_cons n ha, bytesFrom_cons n (hlen ▸ ha), hhead, htail]
    · have hs : s.len ≤ a := Nat.le_of_not_lt ha
      rw [bytesFrom_end _ hs, bytesFrom_end _ (hlen ▸ hs)]

/-- The move from `s` to `t` and the one from `u` to `v` have the same effect: the same cursor and
`STATUS`, the same lines appended, and `FAULT_AT` kept in both or written the same. -/
def SameEffect (s t u v : State) : Prop :=
  ∃ new, t.pc = v.pc ∧ t.status = v.status ∧ t.out = s.out ++ new ∧ v.out = u.out ++ new ∧
    ((t.faultAt = s.faultAt ∧ v.faultAt = u.faultAt) ∨ t.faultAt = v.faultAt)

section
variable {s u : State} (hpc : s.pc = u.pc) (hlen : s.len = u.len) (hst : s.status = u.status)

include hpc hst in
theorem sameEffect_idle : SameEffect s s u u :=
  ⟨[], hpc, hst, (List.append_nil _).symm, (List.append_nil _).symm, .inl ⟨rfl, rfl⟩⟩

include hpc hlen hst in
theorem sameEffect_decodedTo (line : Line) (n : Nat) :
    SameEffect s (decodedTo line n s) u (decodedTo line n u) :=
  ⟨[line], by simp only [decodedTo, hpc], by simp only [decodedTo, hpc, hlen, hst], rfl, rfl,
    .inl ⟨rfl, rfl⟩⟩

include hpc hlen hst in
theorem sameEffect_skippedTo : SameEffect s (skippedTo s) u (skippedTo u) :=
  ⟨[], by simp only [skippedTo, hpc], by simp only [skippedTo, hpc, hlen, hst],
    (List.append_nil _).symm, (List.append_nil _).symm, .inl ⟨rfl, rfl⟩⟩

include hpc in
theorem sameEffect_faultedTo : SameEffect s (faultedTo s) u (faultedTo u) :=
  ⟨[], hpc, rfl, (List.append_nil _).symm, (List.append_nil _).symm, .inr hpc⟩

include hpc hlen hst in
/-- An instruction fits in both images or in neither. -/
theorem exec_sameEffect (i : Instr) :
    ∃ t v, exec i s = .next t ∧ exec i u = .next v ∧ SameEffect s t u v := by
  rcases exec_cases i s with ⟨hs, es⟩ | ⟨hs, es⟩ <;> rcases exec_cases i u with ⟨hu, eu⟩ | ⟨hu, eu⟩
  · exact ⟨_, _, es, eu, sameEffect_decodedTo hpc hlen hst _ _⟩
  · omega
  · omega
  · exact ⟨_, _, es, eu, sameEffect_faultedTo hpc⟩

include hpc hlen hst in
theorem runDecoded_sameEffect (d : Decoded) :
    ∃ t v, runDecoded d s = .next t ∧ runDecoded d u = .next v ∧ SameEffect s t u v := by
  cases d with
  | instr i => exact exec_sameEffect hpc hlen hst i
  | unrecognised => exact ⟨_, _, rfl, rfl, sameEffect_skippedTo hpc hlen hst⟩
  | undefinedSubOp => exact ⟨_, _, rfl, rfl, sameEffect_skippedTo hpc hlen hst⟩
  | truncated => exact ⟨_, _, rfl, rfl, sameEffect_faultedTo hpc⟩

include hpc hlen hst in
/-- States that fetch the same bytes decode the same, so `runDecoded_sameEffect` applies to them. -/
theorem step_sameEffect (hfetch : fetch s = fetch u) :
    ∃ t v, step s = .next t ∧ step u = .next v ∧ SameEffect s t u v := by
  by_cases hrun : s.status = .run
  · rw [step_run hrun, step_run (hst ▸ hrun), hfetch]
    exact runDecoded_sameEffect hpc hlen hst _
  · exact ⟨s, u, step_idle hrun, step_idle (hst ▸ hrun), sameEffect_idle hpc hst⟩

end

/-! ### A fresh pass (R33, R240, R244) -/

/-- The state in which a pass over `bytes` starts. -/
def freshPass (bytes : List Byte) : State where
  img := Memory.writeAll [] 0 bytes
  len := bytes.length
  pc := 0
  status := if bytes.length = 0 then .done else .run
  faultAt := Config.faultAtReset
  out := []

/-- The host can start a pass outside `RUN` only, and nothing of the old state survives it. -/
theorem startPass_eq_some_iff {bytes : List Byte} {s t : State} :
    startPass bytes s = some t ↔ s.status ≠ .run ∧ t = freshPass bytes := by
  by_cases h : s.status = .run
  · simp [startPass, supplyImage, h]
  · simp [startPass, supplyImage, assertReset, resetPass, freshPass, h, eq_comm]

/-! ### The obligations -/

/-- Settles O13: `step_outcome` gives one outcome, and the cursor's move or `STATUS` excludes the other
three. -/
theorem stepHasExactlyOneOfFourOutcomes : Obligations.StepHasExactlyOneOfFourOutcomes := by
  intro s
  obtain ⟨t, e, hd | hs | hf | hi⟩ := step_outcome s
  · exact ⟨t, e, .inl ⟨hd, not_isSkipped_of_isDecoded hd, not_isFaulted_of_isDecoded hd,
      not_isIdle_of_run hd.1⟩⟩
  · exact ⟨t, e, .inr (.inl ⟨hs, fun hd => not_isSkipped_of_isDecoded hd hs,
      not_isFaulted_of_isSkipped hs, not_isIdle_of_run hs.1⟩)⟩
  · exact ⟨t, e, .inr (.inr (.inl ⟨hf, fun hd => not_isFaulted_of_isDecoded hd hf,
      fun hs => not_isFaulted_of_isSkipped hs hf, not_isIdle_of_run hf.1⟩))⟩
  · exact ⟨t, e, .inr (.inr (.inr ⟨hi, fun hd => hi.1 hd.1, fun hs => hi.1 hs.1,
      fun hf => hi.1 hf.1⟩))⟩

/-- Settles O18: a byte no row matches has no variant, and the step skips it. -/
theorem unrecognisedByteIsSkipped : Obligations.UnrecognisedByteIsSkipped :=
  fun _ hrun hin hrows => step_skips_of_classify_none hrun hin (classify_eq_none_iff.mpr hrows)

/-- Settles O52: the two states fetch the same bytes, so their steps have the same effect; and every
pass over `bytes` starts in `freshPass bytes`. -/
theorem stepDependsOnSixBytesOnly : Obligations.StepDependsOnSixBytesOnly := by
  refine ⟨fun s u hpc hlen hst hbytes => ?_, fun bytes s u t v n ht hv => ?_⟩
  · have hfetch : fetch s = fetch u := by
      rw [fetch, fetch, ← hpc]
      exact bytesFrom_congr hlen maxLength s.pc fun k hk hin =>
        (hbytes k (Nat.le_of_lt_succ hk) hin).trans (by rw [hpc])
    obtain ⟨t, v, et, ev, new, heffect⟩ := step_sameEffect hpc hlen hst hfetch
    exact ⟨t, v, new, et, ev, heffect⟩
  · obtain ⟨-, rfl⟩ := startPass_eq_some_iff.mp ht
    obtain ⟨-, rfl⟩ := startPass_eq_some_iff.mp hv
    rfl

end Sys2Proof.Proofs
end

section
/-! PROOFS. The register-or-memory operand (spec/41_operand_blocks.md R110 to R116): the bytes a
displacement takes, and the text of a base with a displacement. -/

namespace Sys2Proof.Proofs

open Sys2Proof.Machine

/-! ### Taking the displacement (R113, R114) -/

@[simp] theorem takeRm_disp8 (rm : BitVec 3) (lo : Byte) (rest : List Byte) :
    takeRm 0b01#2 rm (lo :: rest) = some (.disp8 rm lo, rest) := rfl

@[simp] theorem takeRm_disp16 (rm : BitVec 3) (lo hi : Byte) (rest : List Byte) :
    takeRm 0b10#2 rm (lo :: hi :: rest) = some (.disp16 rm (le16 lo hi), rest) := rfl

/-! ### Its text (R116) -/

@[simp] theorem renderOperand_disp8 (w : Width) (rm : BitVec 3) (d : Byte) :
    renderOperand (rmOperand w (.disp8 rm d)) = renderEA (earom rm) d.toInt := rfl

@[simp] theorem renderOperand_disp16 (w : Width) (rm : BitVec 3) (d : Word16) :
    renderOperand (rmOperand w (.disp16 rm d)) = renderEA (earom rm) d.toInt := rfl

/-- The signed reading is injective, so it is 0 on the zero word only. -/
theorem toInt_eq_zero_iff {n : Nat} {d : BitVec n} : d.toInt = 0 ↔ d = 0#n := by
  rw [← BitVec.toInt_inj, BitVec.toInt_zero]

/-- The zero-omission rule for a displacement of any size, told from its encoded bits. -/
theorem renderEA_toInt {n : Nat} (base : Line) (d : BitVec n) :
    renderEA base d.toInt =
      if d = 0#n then "[".toList ++ base ++ "]".toList
      else "[".toList ++ base ++ " + ".toList ++ dec d.toInt ++ "]".toList := by
  simp only [renderEA, toInt_eq_zero_iff]

/-! ### The obligation -/

/-- Settles O42: at each size the bytes are taken whatever they are, and the text is `renderEA` of the
signed displacement, whose zero test is that of the encoded bits (`renderEA_toInt`). -/
theorem displacementOperands : Obligations.DisplacementOperands := fun w rm lo hi rest =>
  ⟨takeRm_disp8 rm lo rest, rfl,
    (renderOperand_disp8 w rm lo).trans (renderEA_toInt (earom rm) lo),
    takeRm_disp16 rm lo hi rest, rfl,
    (renderOperand_disp16 w rm (le16 lo hi)).trans (renderEA_toInt (earom rm) (le16 lo hi))⟩

end Sys2Proof.Proofs
end

section
/-! PROOFS. The jumps (spec/42_jcc.md R140 to R155): a step on a leading byte CLASS recognises is the
step of that byte's variant, and on a jump it needs one displacement byte and nothing else. -/

namespace Sys2Proof.Proofs

open Sys2Proof.Machine Sys2Proof.Safety Sys2Proof.Claims Sys2Proof.Laws

/-! ### A recognised leading byte (R93) -/

theorem decode_cons_of_classify_some {b : Byte} {v : Variant} (bs : List Byte)
    (h : classify b = some v) : decode (b :: bs) = decodeVariant v b bs := by
  rw [decode, h]

/-- On a leading byte of variant `v` the step decodes `v` from the at most five bytes that follow. -/
theorem step_of_leads {s : State} {v : Variant} (h : Leads s v) :
    step s =
      runDecoded (decodeVariant v (byteAfter s 0) (bytesFrom s (maxLength - 1) (s.pc + 1))) s := by
  obtain ⟨hrun, hin, hclass⟩ := h
  rw [step_run hrun, fetch_cons hin]
  exact congrArg (runDecoded · s) (decode_cons_of_classify_some _ hclass)

theorem exec_of_fits {i : Instr} {s : State} (hfit : s.pc + i.length ≤ s.len) :
    exec i s = .next (decodedTo (render (recordOf i)) i.length s) := by
  rcases exec_cases i s with ⟨-, e⟩ | ⟨hout, -⟩
  · exact e
  · omega

/-! ### DecodeJcc (R140) -/

@[simp] theorem decodeJcc_nil (c : Cond) : decodeJcc c [] = .truncated := rfl

@[simp] theorem decodeJcc_cons (c : Cond) (d : Byte) (bs : List Byte) :
    decodeJcc c (d :: bs) = .instr (jccInstr c d) := rfl

@[simp] theorem length_jccInstr (c : Cond) (d : Byte) : (jccInstr c d).length = 2 := by
  cases c <;> rfl

@[simp] theorem recordOf_jccInstr (c : Cond) (d : Byte) : recordOf (jccInstr c d) = .jcc c d := by
  cases c <;> rfl

/-- A jump whose two bytes lie in the image prints its line and moves past them. -/
theorem exec_jccInstr {c : Cond} {d : Byte} {s : State} (hfit : s.pc + 2 ≤ s.len) :
    exec (jccInstr c d) s =
      .next (decodedTo (jccMnemonic c ++ " ".toList ++ dec d.toInt) 2 s) := by
  rw [exec_of_fits (by rwa [length_jccInstr]), recordOf_jccInstr, length_jccInstr, render]

/-- The whole step on a jump's leading byte: the displacement byte is there, or the step faults. -/
theorem step_jcc {c : Cond} {s : State} (h : Leads s (.jcc c)) :
    DecodesTo s 2 (jccMnemonic c ++ " ".toList ++ dec (byteAfter s 1).toInt) := by
  rw [DecodesTo, step_of_leads h, decodeVariant]
  refine ⟨fun hshort => ?_, fun hfit => ?_⟩
  · rw [bytesFrom_end _ (by omega), decodeJcc_nil, runDecoded, raiseOutOfBounds_eq]
  · rw [maxLength, bytesFrom_cons 4 (by omega), decodeJcc_cons]
    exact exec_jccInstr hfit

/-- CLASS of `je`'s byte (R141). -/
theorem leads_je {s : State} (hrun : s.status = .run) (hin : s.pc < s.len)
    (hbyte : byteAt s s.pc = 0b01110100#8) : Leads s (.jcc .e) :=
  ⟨hrun, hin, (congrArg classify hbyte).trans (by decide)⟩

/-! ### The obligations -/

/-- Settles O21: `step_jcc` at the last offset and below it; the four corner displacements are
numerals. -/
theorem jumpDecoderRule : Obligations.JumpDecoderRule := by
  intro c s h
  obtain ⟨hfault, hdecoded⟩ := step_jcc h
  exact ⟨fun hlast => hfault (by omega), fun hin => hdecoded hin,
    by decide, by decide, by decide, by decide⟩

/-- Settles O22: the byte 0x74 leads `je`, so `step_jcc` applies with the condition `e`. -/
theorem jeRule : Obligations.JeRule := by
  refine ⟨rfl, by decide, by decide, by decide, fun s hrun hin hbyte => ?_⟩
  obtain ⟨hfault, hdecoded⟩ := step_jcc (leads_je hrun hin hbyte)
  exact ⟨fun hlast => hfault (by omega), fun hnext => hdecoded hnext⟩

end Sys2Proof.Proofs
end

section
/-! PROOFS. The family RM_REG (spec/43_rm_reg.md R160, R161): the register-or-memory field of the bytes
at the cursor, and the step on a leading byte of the family. -/

namespace Sys2Proof.Proofs

open Sys2Proof.Machine Sys2Proof.Safety Sys2Proof.Claims Sys2Proof.Laws

/-! ### Taking one and two bytes from a window (R44) -/

theorem take8_inside {s : State} {a : Nat} (n : Nat) (h : a < s.len) :
    take8 (bytesFrom s (n + 1) a) = some (byteAt s a, bytesFrom s n (a + 1)) := by
  rw [bytesFrom_cons n h, take8]

theorem take8_outside {s : State} {a : Nat} (n : Nat) (h : s.len ≤ a) :
    take8 (bytesFrom s n a) = none := by
  rw [bytesFrom_end n h, take8]

theorem take16_inside {s : State} {a : Nat} (n : Nat) (h : a + 1 < s.len) :
    take16 (bytesFrom s (n + 2) a) =
      some (le16 (byteAt s a) (byteAt s (a + 1)), bytesFrom s n (a + 2)) := by
  rw [bytesFrom_cons (n + 1) (by omega), bytesFrom_cons n h, take16]

/-- No partial value when only the first byte is there. -/
theorem take16_outside {s : State} {a : Nat} (n : Nat) (h : s.len ≤ a + 1) :
    take16 (bytesFrom s n a) = none := by
  have hlen : (bytesFrom s n a).length ≤ 1 := by rw [bytesFrom_length]; omega
  match bytesFrom s n a, hlen with
  | [], _ => rfl
  | [_], _ => rfl

/-! ### The register-or-memory field at the cursor (R68, R110) -/

/-- The field that `mod`, `rm` and the bytes after the mod-reg-rm byte encode, row by row of R68. -/
def rmFieldAt (s : State) : RmField :=
  if modField s = 0b11#2 then .reg (rmFieldBits s)
  else if modField s = 0b01#2 then .disp8 (rmFieldBits s) (byteAfter s 2)
  else if modField s = 0b10#2 then .disp16 (rmFieldBits s) (wordAfter s 2)
  else if rmFieldBits s = 0b110#3 then .direct (wordAfter s 2)
  else .base (rmFieldBits s)

theorem rmOperand_rmFieldAt (w : Width) (s : State) :
    rmOperand w (rmFieldAt s) = Claims.rmOf s w := by
  simp only [rmFieldAt, apply_ite (rmOperand w)]
  rfl

/-- The rows of R68: the field at the cursor and the bytes it takes, for each `mod`, and for `mod = 00`
by `rm`. -/
theorem rmFieldAt_cases (s : State) :
    (modField s = 0b11#2 ∧ rmFieldAt s = .reg (rmFieldBits s) ∧ dispBytes s = 0) ∨
    (modField s = 0b01#2 ∧ rmFieldAt s = .disp8 (rmFieldBits s) (byteAfter s 2) ∧
      dispBytes s = 1) ∨
    (modField s = 0b10#2 ∧ rmFieldAt s = .disp16 (rmFieldBits s) (wordAfter s 2) ∧
      dispBytes s = 2) ∨
    (modField s = 0b00#2 ∧ rmFieldBits s = 0b110#3 ∧ rmFieldAt s = .direct (wordAfter s 2) ∧
      dispBytes s = 2) ∨
    (modField s = 0b00#2 ∧ rmFieldBits s ≠ 0b110#3 ∧ rmFieldAt s = .base (rmFieldBits s) ∧
      dispBytes s = 0) := by
  have hmod : ∀ m : BitVec 2, m = 0b11#2 ∨ m = 0b01#2 ∨ m = 0b10#2 ∨ m = 0b00#2 := by decide
  rcases hmod (modField s) with h | h | h | h
  · simp [rmFieldAt, dispBytes, dispLenOf, h]
  · simp [rmFieldAt, dispBytes, dispLenOf, h]
  · simp [rmFieldAt, dispBytes, dispLenOf, h]
  · by_cases hrm : rmFieldBits s = 0b110#3 <;> simp [rmFieldAt, dispBytes, dispLenOf, h, hrm]

theorem dispLen_rmFieldAt (s : State) : (rmFieldAt s).dispLen = dispBytes s := by
  rcases rmFieldAt_cases s with
    ⟨-, hf, hn⟩ | ⟨-, hf, hn⟩ | ⟨-, hf, hn⟩ | ⟨-, -, hf, hn⟩ | ⟨-, -, hf, hn⟩ <;>
    rw [hf, hn, RmField.dispLen]

/-- With its bytes inside the image the field is taken, and what follows it is left. -/
theorem takeRm_inside {s : State} (n : Nat) (h : s.pc + 2 + dispBytes s ≤ s.len) :
    takeRm (modField s) (rmFieldBits s) (bytesFrom s (n + 2) (s.pc + 2)) =
      some (rmFieldAt s, bytesFrom s (n + 2 - dispBytes s) (s.pc + 2 + dispBytes s)) := by
  rcases rmFieldAt_cases s with
    ⟨hm, hf, hn⟩ | ⟨hm, hf, hn⟩ | ⟨hm, hf, hn⟩ | ⟨hm, hrm, hf, hn⟩ | ⟨hm, hrm, hf, hn⟩ <;>
    rw [hn] at h ⊢ <;> rw [hf, hm]
  · rfl
  · simp [takeRm, take8_inside (n + 1) (show s.pc + 2 < s.len by omega), byteAfter]
  · simp [takeRm, take16_inside n (show s.pc + 2 + 1 < s.len by omega), wordAfter, byteAfter]
  · simp [takeRm, hrm, take16_inside n (show s.pc + 2 + 1 < s.len by omega), wordAfter, byteAfter]
  · simp [takeRm, hrm]

/-- With the mod-reg-rm byte there, the field is not taken when one of its own bytes is missing. -/
theorem takeRm_outside {s : State} (n : Nat) (h1 : s.pc + 2 ≤ s.len)
    (h : s.len < s.pc + 2 + dispBytes s) :
    takeRm (modField s) (rmFieldBits s) (bytesFrom s n (s.pc + 2)) = none := by
  rcases rmFieldAt_cases s with
    ⟨hm, -, hn⟩ | ⟨hm, -, hn⟩ | ⟨hm, -, hn⟩ | ⟨hm, hrm, -, hn⟩ | ⟨hm, hrm, -, hn⟩ <;>
    rw [hn] at h
  · omega
  · simp [takeRm, hm, take8_outside n (show s.len ≤ s.pc + 2 by omega)]
  · simp [takeRm, hm, take16_outside n (show s.len ≤ s.pc + 2 + 1 by omega)]
  · simp [takeRm, hm, hrm, take16_outside n (show s.len ≤ s.pc + 2 + 1 by omega)]
  · omega

/-- After the leading byte the window holds the mod-reg-rm byte, then the field's own bytes. -/
theorem bytesFrom_modRegRm {s : State} (n : Nat) (h : s.pc + 2 ≤ s.len) :
    bytesFrom s (n + 1) (s.pc + 1) = byteAfter s 1 :: bytesFrom s n (s.pc + 2) :=
  bytesFrom_cons n (by omega)

theorem widthOfBit_eq_sizeBit (s : State) (k : Nat) :
    widthOfBit (bitOf (byteAfter s 0) k) = sizeBit s k := by
  rw [sizeBit]
  cases bitOf (byteAfter s 0) k <;> rfl

/-! ### DecodeRmReg (R160) -/

section
variable (mk : Bool → Width → BitVec 3 → RmField → Instr) (b : Byte)

@[simp] theorem decodeRmReg_nil : decodeRmReg mk b [] = .truncated := rfl

theorem decodeRmReg_cons_of_none {m : Byte} {bs : List Byte}
    (h : takeRm (modOf m) (Sys2Proof.rmOf m) bs = none) :
    decodeRmReg mk b (m :: bs) = .truncated := by
  simp only [decodeRmReg, take8, h]

theorem decodeRmReg_cons_of_some {m : Byte} {bs rest : List Byte} {rm : RmField}
    (h : takeRm (modOf m) (Sys2Proof.rmOf m) bs = some (rm, rest)) :
    decodeRmReg mk b (m :: bs) =
      .instr (mk (bitOf b 1) (widthOfBit (bitOf b 0)) (regOf m) rm) := by
  simp only [decodeRmReg, take8, h]

end

/-- The line of a two-operand record, its mnemonic given. -/
theorem render_two {op : Op} {mnemonic : String} (h : mnemrom op = mnemonic.toList) (w : Width)
    (dst src : Operand) :
    render (.two op w dst src) = twoLine mnemonic (renderOperand dst) (renderOperand src) := by
  rw [render, h, twoLine]

/-- The register's text comes first exactly when `d = 1` (R117, R160). -/
theorem render_recordRmReg {op : Op} {mnemonic : String} (h : mnemrom op = mnemonic.toList)
    (d : Bool) (w : Width) (reg : BitVec 3) (rm : RmField) :
    render (recordRmReg op d w reg rm) =
      if d then twoLine mnemonic (regName w reg) (renderOperand (rmOperand w rm))
      else twoLine mnemonic (renderOperand (rmOperand w rm)) (regName w reg) := by
  cases d <;> exact render_two h w _ _

/-- The variant `v` selects DecodeRmReg with `mk`, and `mk` is the instruction of operation `op`. -/
structure IsRmReg (v : Variant) (mk : Bool → Width → BitVec 3 → RmField → Instr) (op : Op) :
    Prop where
  decodes : ∀ b bs, decodeVariant v b bs = decodeRmReg mk b bs
  length : ∀ d w reg rm, (mk d w reg rm).length = 2 + rm.dispLen
  record : ∀ d w reg rm, recordOf (mk d w reg rm) = recordRmReg op d w reg rm

theorem isRmReg_mov : IsRmReg .movRmReg .movRmReg .mov :=
  ⟨fun _ _ => rfl, fun _ _ _ _ => rfl, fun _ _ _ _ => rfl⟩

theorem isRmReg_add : IsRmReg .addRmReg .addRmReg .add :=
  ⟨fun _ _ => rfl, fun _ _ _ _ => rfl, fun _ _ _ _ => rfl⟩

theorem isRmReg_sub : IsRmReg .subRmReg .subRmReg .sub :=
  ⟨fun _ _ => rfl, fun _ _ _ _ => rfl, fun _ _ _ _ => rfl⟩

theorem isRmReg_cmp : IsRmReg .cmpRmReg .cmpRmReg .cmp :=
  ⟨fun _ _ => rfl, fun _ _ _ _ => rfl, fun _ _ _ _ => rfl⟩

/-- The step on a leading byte of the family, in the three cases of what the image holds: no mod-reg-rm
byte, that byte with a displacement byte missing, the whole instruction. -/
theorem IsRmReg.rule {v : Variant} {mk : Bool → Width → BitVec 3 → RmField → Instr} {op : Op}
    {mnemonic : String} (hv : IsRmReg v mk op) (hop : mnemrom op = mnemonic.toList) :
    RmRegRule v mnemonic := by
  intro s hs
  rw [DecodesTo, step_of_leads hs, hv.decodes, maxLength]
  refine ⟨fun hshort => ?_, fun hmrm => ⟨fun hshort => ?_, fun hfit => ?_⟩⟩
  · rw [bytesFrom_end _ (by omega), decodeRmReg_nil, runDecoded, raiseOutOfBounds_eq]
  · have htake := takeRm_outside 4 hmrm (by omega)
    rw [bytesFrom_modRegRm 4 hmrm, decodeRmReg_cons_of_none mk _ htake, runDecoded,
      raiseOutOfBounds_eq]
  · have htake := takeRm_inside 2 (by omega : s.pc + 2 + dispBytes s ≤ s.len)
    have hlen : ∀ d w reg, (mk d w reg (rmFieldAt s)).length = 2 + dispBytes s := fun d w reg => by
      rw [hv.length, dispLen_rmFieldAt]
    rw [bytesFrom_modRegRm 4 hmrm, decodeRmReg_cons_of_some mk _ htake, runDecoded,
      exec_of_fits (by rwa [hlen]), hlen, hv.record, render_recordRmReg hop,
      rmOperand_rmFieldAt, widthOfBit_eq_sizeBit]
    rfl

/-! ### The leading bytes (R63, R161) -/

/-- The leading bits `100010` with any `d` and `w` are MOV_RM_REG. -/
theorem classify_movRmReg {b : Byte} (h : b.extractLsb' 2 6 = 0b100010#6) :
    classify b = some .movRmReg := by
  have hdw : ∀ dw : BitVec 2, classify (0b100010#6 ++ dw) = some .movRmReg := by decide
  have hb : b = b.extractLsb' 2 6 ++ b.extractLsb' 0 2 := by
    rw [BitVec.extractLsb'_append_extractLsb'_eq_extractLsb' (by rfl), BitVec.extractLsb'_eq_self]
  rw [hb, h]
  exact hdw _

/-- The segment-register moves begin with `100011`, which no row holds. -/
theorem classify_segmentMove {b : Byte} (h : b = 0x8C#8 ∨ b = 0x8E#8) : classify b = none := by
  rcases h with rfl | rfl <;> decide

/-! ### The obligations -/

/-- Settles O24: each of the four variants selects DecodeRmReg with its operation, so
`IsRmReg.rule` applies. -/
theorem rmRegDecoderRule : Obligations.RmRegDecoderRule :=
  ⟨isRmReg_mov.rule rfl, isRmReg_add.rule rfl, isRmReg_sub.rule rfl, isRmReg_cmp.rule rfl⟩

/-- Settles O25: `IsRmReg.rule` for `mov`, CLASS of the bytes that begin with `100010` and of the two
segment-register moves, and the worked example 89 D8. -/
theorem movRmRegRule : Obligations.MovRmRegRule :=
  ⟨rfl, isRmReg_mov.rule rfl,
    fun _ hrun hin hlead => ⟨hrun, hin, classify_movRmReg hlead⟩,
    fun _ hrun hin hbyte => step_skips_of_classify_none hrun hin (classify_segmentMove hbyte),
    fun _ hfit => exec_of_fits (i := .movRmReg false .word 0b011#3 (.reg 0b000#3)) hfit⟩

end Sys2Proof.Proofs
end

section
/-! PROOFS. Immediate operands (spec/41_operand_blocks.md R119, R120) and the family IMM_ACC
(spec/45_imm_acc.md R180): the immediate among the bytes at an offset, and the step on a leading byte of
the family. -/

namespace Sys2Proof.Proofs

open Sys2Proof.Machine Sys2Proof.Safety Sys2Proof.Claims Sys2Proof.Laws

/-! ### The immediate at an offset (R69, R119, R120) -/

/-- The immediate of encoded size `w` that the bytes from offset `a` on encode. -/
def immFieldAt (s : State) (a : Nat) : Width → ImmField
  | .byte => .imm8 (byteAt s a)
  | .word => .imm16 (le16 (byteAt s a) (byteAt s (a + 1)))

@[simp] theorem immLen_immFieldAt (s : State) (a : Nat) (w : Width) :
    (immFieldAt s a w).immLen = w.nbytes := by
  cases w <;> rfl

/-- Without a keyword the text is that of R120: one byte signed, two bytes unsigned. -/
theorem renderOperand_immFieldAt (s : State) (k : Nat) (w : Width) :
    renderOperand (.imm (immFieldAt s (s.pc + k) w) .none) = immText s k w.nbytes := by
  cases w <;> rfl

/-- With its bytes inside the image the immediate is taken, and what follows it is left. -/
theorem takeImm_inside {s : State} {a : Nat} {w : Width} (n : Nat) (h : a + w.nbytes ≤ s.len) :
    takeImm w (bytesFrom s (n + 2) a) =
      some (immFieldAt s a w, bytesFrom s (n + 2 - w.nbytes) (a + w.nbytes)) := by
  cases w with
  | byte => rw [takeImm, take8_inside (n + 1) h]; rfl
  | word => rw [takeImm, take16_inside n h]; rfl

/-- With a byte of it missing the immediate is not taken: no partial value (R44). -/
theorem takeImm_outside {s : State} {a : Nat} {w : Width} (n : Nat) (h : s.len < a + w.nbytes) :
    takeImm w (bytesFrom s n a) = none := by
  cases w with
  | byte => rw [takeImm, take8_outside n (Nat.le_of_lt_succ h), Option.map_none]
  | word => rw [takeImm, take16_outside n (Nat.le_of_lt_succ h), Option.map_none]

/-! ### What the size bit chooses (R69, R180) -/

theorem nbytes_sizeBit (s : State) (k : Nat) :
    (sizeBit s k).nbytes = if bitOf (byteAfter s 0) k then 2 else 1 := by
  rw [sizeBit]
  cases bitOf (byteAfter s 0) k <;> rfl

theorem one_add_nbytes_sizeBit (s : State) (k : Nat) :
    1 + (sizeBit s k).nbytes = if bitOf (byteAfter s 0) k then 3 else 2 := by
  rw [nbytes_sizeBit, apply_ite (1 + ·)]

theorem renderOperand_accumulator_sizeBit (s : State) (k : Nat) :
    renderOperand (accumulator (sizeBit s k)) =
      if bitOf (byteAfter s 0) k then "ax".toList else "al".toList := by
  rw [sizeBit]
  cases bitOf (byteAfter s 0) k <;> rfl

/-! ### DecodeImmAcc (R180) -/

section
variable (mk : Width → ImmField → Instr) {b : Byte} {w : Width} (hw : widthOfBit (bitOf b 0) = w)
  {bs : List Byte}

include hw in
theorem decodeImmAcc_of_none (h : takeImm w bs = none) : decodeImmAcc mk b bs = .truncated := by
  simp only [decodeImmAcc, hw, h]

include hw in
theorem decodeImmAcc_of_some {imm : ImmField} {rest : List Byte}
    (h : takeImm w bs = some (imm, rest)) : decodeImmAcc mk b bs = .instr (mk w imm) := by
  simp only [decodeImmAcc, hw, h]

end

/-- The variant `v` selects DecodeImmAcc with `mk`, and `mk` is the instruction of operation `op`. -/
structure IsImmAcc (v : Variant) (mk : Width → ImmField → Instr) (op : Op) : Prop where
  decodes : ∀ b bs, decodeVariant v b bs = decodeImmAcc mk b bs
  length : ∀ w imm, (mk w imm).length = 1 + imm.immLen
  record : ∀ w imm, recordOf (mk w imm) = .two op w (accumulator w) (.imm imm .none)

theorem isImmAcc_add : IsImmAcc .addImmAcc .addImmAcc .add :=
  ⟨fun _ _ => rfl, fun _ _ => rfl, fun _ _ => rfl⟩

theorem isImmAcc_sub : IsImmAcc .subImmAcc .subImmAcc .sub :=
  ⟨fun _ _ => rfl, fun _ _ => rfl, fun _ _ => rfl⟩

theorem isImmAcc_cmp : IsImmAcc .cmpImmAcc .cmpImmAcc .cmp :=
  ⟨fun _ _ => rfl, fun _ _ => rfl, fun _ _ => rfl⟩

section
variable {v : Variant} {mk : Width → ImmField → Instr} {op : Op} {mnemonic : String}

/-- The step on a leading byte of the family, told by the encoded size: the immediate is there, or a
byte of it is missing. -/
theorem IsImmAcc.decodesTo (hv : IsImmAcc v mk op) (hop : mnemrom op = mnemonic.toList) {s : State}
    (hs : Leads s v) :
    DecodesTo s (1 + (sizeBit s 0).nbytes)
      (twoLine mnemonic (renderOperand (accumulator (sizeBit s 0)))
        (immText s 1 (sizeBit s 0).nbytes)) := by
  have hw := widthOfBit_eq_sizeBit s 0
  rw [DecodesTo, step_of_leads hs, hv.decodes, maxLength]
  refine ⟨fun hshort => ?_, fun hfit => ?_⟩
  · have htake := takeImm_outside 5 (by omega : s.len < s.pc + 1 + (sizeBit s 0).nbytes)
    rw [decodeImmAcc_of_none mk hw htake, runDecoded, raiseOutOfBounds_eq]
  · have htake := takeImm_inside 3 (by omega : s.pc + 1 + (sizeBit s 0).nbytes ≤ s.len)
    have hlen : (mk (sizeBit s 0) (immFieldAt s (s.pc + 1) (sizeBit s 0))).length =
        1 + (sizeBit s 0).nbytes := by
      rw [hv.length, immLen_immFieldAt]
    rw [decodeImmAcc_of_some mk hw htake, runDecoded, exec_of_fits (by rwa [hlen]), hlen, hv.record,
      render_two hop, renderOperand_immFieldAt]

/-- R180 in the words of the size bit. -/
theorem IsImmAcc.rule (hv : IsImmAcc v mk op) (hop : mnemrom op = mnemonic.toList) :
    ImmAccRule v mnemonic := by
  intro s hs
  rw [← one_add_nbytes_sizeBit, ← nbytes_sizeBit, ← renderOperand_accumulator_sizeBit]
  exact hv.decodesTo hop hs

end

/-! ### The obligation -/

/-- Settles O28: each of the three variants selects DecodeImmAcc with its operation, so
`IsImmAcc.rule` applies. -/
theorem immAccDecoderRule : Obligations.ImmAccDecoderRule :=
  ⟨isImmAcc_add.rule rfl, isImmAcc_sub.rule rfl, isImmAcc_cmp.rule rfl⟩

end Sys2Proof.Proofs
end

section
/-! PROOFS. Decode and encode (spec/30_encoding.md sections 1 to 6). Each reader of fields is characterised
once, by an equivalence: it answers a field exactly when the bytes begin with that field's encoding. The
two round trips are the two directions of the equivalence for the whole decoder. -/

namespace Sys2Proof.Proofs

open Sys2Proof.Machine Sys2Proof.Laws

/-! ### Bytes and 16-bit fields (R42, R43) -/

@[simp] theorem le16_loByte_hiByte (v : Word16) : le16 (loByte v) (hiByte v) = v := by
  have hv := v.isLt
  apply BitVec.eq_of_toNat_eq
  rw [le16_toNat, loByte, hiByte, BitVec.toNat_ofNat, BitVec.toNat_ofNat]
  omega

theorem take8_eq_some_iff {bs rest : List Byte} {b : Byte} :
    take8 bs = some (b, rest) ↔ bs = b :: rest := by
  cases bs <;> simp [take8]

theorem take16_eq_some_iff {bs rest : List Byte} {v : Word16} :
    take16 bs = some (v, rest) ↔ bs = bytes16 v ++ rest := by
  match bs with
  | [] => simp [take16, bytes16]
  | [_] => simp [take16, bytes16]
  | lo :: hi :: bs =>
    simp only [take16, Option.some.injEq, Prod.mk.injEq]
    constructor
    · rintro ⟨rfl, rfl⟩
      simp
    · intro h
      simp only [bytes16, List.cons_append, List.nil_append, List.cons.injEq] at h
      obtain ⟨rfl, rfl, rfl⟩ := h
      exact ⟨le16_loByte_hiByte v, rfl⟩

@[simp] theorem take16_bytes16_append (v : Word16) (rest : List Byte) :
    take16 (bytes16 v ++ rest) = some (v, rest) := take16_eq_some_iff.mpr rfl

/-! ### The immediate (R69) -/

theorem takeImm_eq_some_iff {n : Width} {bs rest : List Byte} {imm : ImmField} :
    takeImm n bs = some (imm, rest) ↔ imm.fits n = true ∧ bs = imm.encode ++ rest := by
  cases n <;> cases imm <;>
    simp [takeImm, ImmField.fits, ImmField.encode, take8_eq_some_iff, take16_eq_some_iff]

/-! ### The mod-reg-rm byte (R62) -/

@[simp] theorem modOf_modRegRm (mod : BitVec 2) (reg rm : BitVec 3) :
    modOf (modRegRm mod reg rm) = mod := by
  revert mod reg rm; decide

@[simp] theorem regOf_modRegRm (mod : BitVec 2) (reg rm : BitVec 3) :
    regOf (modRegRm mod reg rm) = reg := by
  revert mod reg rm; decide

@[simp] theorem rmOf_modRegRm (mod : BitVec 2) (reg rm : BitVec 3) :
    Sys2Proof.rmOf (modRegRm mod reg rm) = rm := by
  revert mod reg rm; decide

/-- The byte is the sequence of its three fields. -/
theorem modRegRm_fields (m : Byte) : modRegRm (modOf m) (regOf m) (Sys2Proof.rmOf m) = m := by
  revert m; decide

/-! ### The register-or-memory field (R68) -/

/-- The `mod` field of the row of R68. -/
def modBits : RmField → BitVec 2
  | .base _ => 0b00#2
  | .direct _ => 0b00#2
  | .disp8 _ _ => 0b01#2
  | .disp16 _ _ => 0b10#2
  | .reg _ => 0b11#2

/-- The `rm` field of the row of R68. -/
def rmBits : RmField → BitVec 3
  | .base rm => rm
  | .direct _ => 0b110#3
  | .disp8 rm _ => rm
  | .disp16 rm _ => rm
  | .reg rm => rm

/-- The displacement or address bytes of the row of R68. -/
def dispEncode : RmField → List Byte
  | .base _ => []
  | .direct a => bytes16 a
  | .disp8 _ d => [d]
  | .disp16 _ d => bytes16 d
  | .reg _ => []

/-- The encoding is the mod-reg-rm byte of the row's fields, then the row's bytes. -/
theorem rm_encode_eq (reg : BitVec 3) (f : RmField) :
    f.encode reg = modRegRm (modBits f) reg (rmBits f) :: dispEncode f := by
  cases f <;> rfl

theorem takeRm_modBits {f : RmField} (hf : f.wf = true) (rest : List Byte) :
    takeRm (modBits f) (rmBits f) (dispEncode f ++ rest) = some (f, rest) := by
  cases f with
  | base rm =>
    have hrm : rm ≠ 6#3 := by simpa [RmField.wf] using hf
    simp [takeRm, modBits, rmBits, dispEncode, hrm]
  | direct a => simp [takeRm, modBits, rmBits, dispEncode]
  | disp8 rm d => simp [takeRm, modBits, rmBits, dispEncode, take8]
  | disp16 rm d => simp [takeRm, modBits, rmBits, dispEncode]
  | reg rm => simp [takeRm, modBits, rmBits, dispEncode]

theorem takeRm_eq_some {mod : BitVec 2} {rm : BitVec 3} {bs rest : List Byte} {f : RmField}
    (h : takeRm mod rm bs = some (f, rest)) :
    f.wf = true ∧ modBits f = mod ∧ rmBits f = rm ∧ bs = dispEncode f ++ rest := by
  have hmod : ∀ m : BitVec 2, m = 0b00#2 ∨ m = 0b01#2 ∨ m = 0b10#2 ∨ m = 0b11#2 := by decide
  rcases hmod mod with rfl | rfl | rfl | rfl
  · by_cases hrm : rm = 6#3
    · subst hrm
      obtain ⟨⟨a, bs'⟩, htake, he⟩ := Option.map_eq_some_iff.mp h
      cases he
      exact ⟨rfl, rfl, rfl, take16_eq_some_iff.mp htake⟩
    · have he : takeRm 0b00#2 rm bs = some (.base rm, bs) := by simp [takeRm, hrm]
      cases he.symm.trans h
      exact ⟨by simpa [RmField.wf] using hrm, rfl, rfl, rfl⟩
  · obtain ⟨⟨d, bs'⟩, htake, he⟩ := Option.map_eq_some_iff.mp h
    cases he
    exact ⟨rfl, rfl, rfl, take8_eq_some_iff.mp htake⟩
  · obtain ⟨⟨d, bs'⟩, htake, he⟩ := Option.map_eq_some_iff.mp h
    cases he
    exact ⟨rfl, rfl, rfl, take16_eq_some_iff.mp htake⟩
  · cases h
    exact ⟨rfl, rfl, rfl, rfl⟩

/-- The mod-reg-rm byte and the field after it, read together: the middle field is left over. -/
theorem takeRm_cons_eq_some_iff {m : Byte} {bs rest : List Byte} {f : RmField} :
    takeRm (modOf m) (Sys2Proof.rmOf m) bs = some (f, rest) ↔
      f.wf = true ∧ m :: bs = f.encode (regOf m) ++ rest := by
  rw [rm_encode_eq, List.cons_append, List.cons.injEq]
  constructor
  · intro h
    obtain ⟨hf, hmod, hrm, hbs⟩ := takeRm_eq_some h
    exact ⟨hf, by rw [hmod, hrm, modRegRm_fields], hbs⟩
  · rintro ⟨hf, hm, rfl⟩
    rw [hm, modOf_modRegRm, rmOf_modRegRm]
    exact takeRm_modBits hf rest

end Sys2Proof.Proofs
end

section
/-! PROOFS. Decode and encode, whole instructions (spec/30_encoding.md sections 1 to 6): the leading byte of
each variant, each operand decoder on an encoding and back, and the two round trips. -/

namespace Sys2Proof.Proofs

open Sys2Proof.Machine Sys2Proof.Laws

/-! ### The leading byte (R61, R63) -/

@[simp] theorem widthOfBit_bit (w : Width) : widthOfBit w.bit = w := by cases w <;> rfl

@[simp] theorem bitOf_leadP7 (p : BitVec 7) (w : Width) : bitOf (leadP7 p w) 0 = w.bit := by
  cases w <;> decide +revert

@[simp] theorem bitOf_leadP6_zero (p : BitVec 6) (x : Bool) (w : Width) :
    bitOf (leadP6 p x w) 0 = w.bit := by
  cases w <;> decide +revert

@[simp] theorem bitOf_leadP6_one (p : BitVec 6) (x : Bool) (w : Width) :
    bitOf (leadP6 p x w) 1 = x := by
  cases w <;> decide +revert

@[simp] theorem bitOf_leadP4 (p : BitVec 4) (w : Width) (reg : BitVec 3) :
    bitOf (leadP4 p w reg) 3 = w.bit := by
  cases w <;> decide +revert

@[simp] theorem extractLsb'_leadP4 (p : BitVec 4) (w : Width) (reg : BitVec 3) :
    (leadP4 p w reg).extractLsb' 0 3 = reg := BitVec.extractLsb'_append_eq_right

/-- The leading byte of a variant: its pattern (R63) with the fields its format carries, of `x` (`d` or
`s`), `w` and `reg`. -/
def leadOf : Variant → Bool → Width → BitVec 3 → Byte
  | .jcc c, _, _, _ => c.opcode
  | .movMemToAcc, _, w, _ => leadP7 0b1010000#7 w
  | .movAccToMem, _, w, _ => leadP7 0b1010001#7 w
  | .movImmRm, _, w, _ => leadP7 0b1100011#7 w
  | .addImmAcc, _, w, _ => leadP7 0b0000010#7 w
  | .subImmAcc, _, w, _ => leadP7 0b0010110#7 w
  | .cmpImmAcc, _, w, _ => leadP7 0b0011110#7 w
  | .movRmReg, x, w, _ => leadP6 0b100010#6 x w
  | .addRmReg, x, w, _ => leadP6 0b000000#6 x w
  | .subRmReg, x, w, _ => leadP6 0b001010#6 x w
  | .cmpRmReg, x, w, _ => leadP6 0b001110#6 x w
  | .arithImmRm, x, w, _ => leadP6 0b100000#6 x w
  | .movImmReg, _, w, reg => leadP4 0b1011#4 w reg

/-- The bit of the leading byte that holds `w`. -/
def widthBit : Variant → Nat
  | .movImmReg => 3
  | _ => 0

theorem classify_opcode (c : Cond) : classify c.opcode = some (.jcc c) := by
  cases c <;> decide

/-- CLASS gives back the variant, whatever the fields. -/
theorem classify_leadOf (v : Variant) (x : Bool) (w : Width) (reg : BitVec 3) :
    classify (leadOf v x w reg) = some v := by
  cases v with
  | jcc c => exact classify_opcode c
  | _ => cases x <;> cases w <;> decide +revert

/-- A byte of variant `v` is the leading byte of `v` with the fields the byte holds. -/
theorem leadOf_of_classify {b : Byte} {v : Variant} (h : classify b = some v) :
    leadOf v (bitOf b 1) (widthOfBit (bitOf b (widthBit v))) (b.extractLsb' 0 3) = b := by
  have hall : ∀ b : Byte, ∀ v ∈ classify b,
      leadOf v (bitOf b 1) (widthOfBit (bitOf b (widthBit v))) (b.extractLsb' 0 3) = b := by decide
  exact hall b v h

/-! ### From an encoding to the instruction -/

section
variable {rm : RmField} (hrm : rm.wf = true) (reg : BitVec 3) (b : Byte) (rest : List Byte)

include hrm in
theorem decodeRmReg_encode (mk : Bool → Width → BitVec 3 → RmField → Instr) :
    decodeRmReg mk b (rm.encode reg ++ rest) =
      .instr (mk (bitOf b 1) (widthOfBit (bitOf b 0)) reg rm) := by
  rw [rm_encode_eq, List.cons_append]
  simpa using decodeRmReg_cons_of_some mk b (m := modRegRm (modBits rm) reg (rmBits rm))
    (by simpa using takeRm_modBits hrm rest)

include hrm in
theorem decodeMovImmRm_encode {imm : ImmField} (himm : imm.fits (widthOfBit (bitOf b 0)) = true) :
    decodeMovImmRm b (rm.encode reg ++ imm.encode ++ rest) =
      .instr (.movImmRm (widthOfBit (bitOf b 0)) reg rm imm) := by
  rw [rm_encode_eq, List.append_assoc, List.cons_append]
  simp [decodeMovImmRm, take8, takeRm_modBits hrm, takeImm_eq_some_iff.mpr ⟨himm, rfl⟩]

include hrm in
theorem decodeArithImmRm_encode {mk : Bool → Width → RmField → ImmField → Instr}
    (hmk : arithInstr reg = some mk) {imm : ImmField}
    (himm : imm.fits (arithImmWidth (bitOf b 1) (widthOfBit (bitOf b 0))) = true) :
    decodeArithImmRm b (rm.encode reg ++ imm.encode ++ rest) =
      .instr (mk (bitOf b 1) (widthOfBit (bitOf b 0)) rm imm) := by
  rw [rm_encode_eq, List.append_assoc, List.cons_append]
  simp [decodeArithImmRm, take8, hmk, takeRm_modBits hrm, takeImm_eq_some_iff.mpr ⟨himm, rfl⟩]

end

theorem decodeImmAcc_encode (mk : Width → ImmField → Instr) {b : Byte} {imm : ImmField}
    (himm : imm.fits (widthOfBit (bitOf b 0)) = true) (rest : List Byte) :
    decodeImmAcc mk b (imm.encode ++ rest) = .instr (mk (widthOfBit (bitOf b 0)) imm) :=
  decodeImmAcc_of_some mk rfl (takeImm_eq_some_iff.mpr ⟨himm, rfl⟩)

theorem decodeMovImmReg_encode {b : Byte} {imm : ImmField}
    (himm : imm.fits (widthOfBit (bitOf b 3)) = true) (rest : List Byte) :
    decodeMovImmReg b (imm.encode ++ rest) =
      .instr (.movImmReg (widthOfBit (bitOf b 3)) (b.extractLsb' 0 3) imm) := by
  simp only [decodeMovImmReg, takeImm_eq_some_iff.mpr ⟨himm, rfl⟩]

theorem decodeMovMemAcc_encode (mk : Width → Word16 → Instr) (b : Byte) (a : Word16)
    (rest : List Byte) :
    decodeMovMemAcc mk b (bytes16 a ++ rest) = .instr (mk (widthOfBit (bitOf b 0)) a) := by
  simp only [decodeMovMemAcc, take16_bytes16_append]

theorem decode_encode_jccInstr (c : Cond) (d : Byte) (rest : List Byte) :
    decode (c.opcode :: d :: rest) = .instr (jccInstr c d) := by
  rw [decode_cons_of_classify_some _ (classify_opcode c), decodeVariant, decodeJcc_cons]

end Sys2Proof.Proofs
end

section
/-! PROOFS. The two round trips of decode and encode (spec/30_encoding.md sections 1 to 6), and the step on an
encoded instruction. -/

namespace Sys2Proof.Proofs

open Sys2Proof.Machine Sys2Proof.Laws

/-! ### From a decoded instruction to the bytes -/

theorem decodeJcc_eq_instr {c : Cond} {bs : List Byte} {i : Instr} (h : decodeJcc c bs = .instr i) :
    ∃ d rest, bs = d :: rest ∧ i = jccInstr c d := by
  cases bs with
  | nil => cases h
  | cons d rest => exact ⟨d, rest, rfl, (Decoded.instr.inj h).symm⟩

theorem decodeRmReg_eq_instr {mk : Bool → Width → BitVec 3 → RmField → Instr} {b : Byte}
    {bs : List Byte} {i : Instr} (h : decodeRmReg mk b bs = .instr i) :
    ∃ reg rm rest, rm.wf = true ∧ bs = rm.encode reg ++ rest ∧
      i = mk (bitOf b 1) (widthOfBit (bitOf b 0)) reg rm := by
  cases bs with
  | nil => cases h
  | cons m bs =>
    cases hrm : takeRm (modOf m) (Sys2Proof.rmOf m) bs with
    | none => simp [decodeRmReg, take8, hrm] at h
    | some p =>
      obtain ⟨hwf, hbs⟩ := takeRm_cons_eq_some_iff.mp hrm
      rw [decodeRmReg_cons_of_some mk b hrm] at h
      exact ⟨regOf m, p.1, p.2, hwf, hbs, (Decoded.instr.inj h).symm⟩

theorem decodeMovImmRm_eq_instr {b : Byte} {bs : List Byte} {i : Instr}
    (h : decodeMovImmRm b bs = .instr i) :
    ∃ reg rm imm rest, rm.wf = true ∧ imm.fits (widthOfBit (bitOf b 0)) = true ∧
      bs = rm.encode reg ++ imm.encode ++ rest ∧
      i = .movImmRm (widthOfBit (bitOf b 0)) reg rm imm := by
  cases bs with
  | nil => cases h
  | cons m bs =>
    cases hrm : takeRm (modOf m) (Sys2Proof.rmOf m) bs with
    | none => simp [decodeMovImmRm, take8, hrm] at h
    | some p =>
      cases himm : takeImm (widthOfBit (bitOf b 0)) p.2 with
      | none => simp [decodeMovImmRm, take8, hrm, himm] at h
      | some q =>
        obtain ⟨hwf, hbs⟩ := takeRm_cons_eq_some_iff.mp hrm
        obtain ⟨hfits, hrest⟩ := takeImm_eq_some_iff.mp himm
        simp only [decodeMovImmRm, take8, hrm, himm, Decoded.instr.injEq] at h
        exact ⟨regOf m, p.1, q.1, q.2, hwf, hfits, by rw [hbs, hrest, List.append_assoc], h.symm⟩

theorem decodeArithImmRm_eq_instr {b : Byte} {bs : List Byte} {i : Instr}
    (h : decodeArithImmRm b bs = .instr i) :
    ∃ op3 mk rm imm rest, arithInstr op3 = some mk ∧ rm.wf = true ∧
      imm.fits (arithImmWidth (bitOf b 1) (widthOfBit (bitOf b 0))) = true ∧
      bs = rm.encode op3 ++ imm.encode ++ rest ∧
      i = mk (bitOf b 1) (widthOfBit (bitOf b 0)) rm imm := by
  cases bs with
  | nil => cases h
  | cons m bs =>
    cases hmk : arithInstr (regOf m) with
    | none => simp [decodeArithImmRm, take8, hmk] at h
    | some mk =>
      cases hrm : takeRm (modOf m) (Sys2Proof.rmOf m) bs with
      | none => simp [decodeArithImmRm, take8, hmk, hrm] at h
      | some p =>
        cases himm : takeImm (arithImmWidth (bitOf b 1) (widthOfBit (bitOf b 0))) p.2 with
        | none => simp [decodeArithImmRm, take8, hmk, hrm, himm] at h
        | some q =>
          obtain ⟨hwf, hbs⟩ := takeRm_cons_eq_some_iff.mp hrm
          obtain ⟨hfits, hrest⟩ := takeImm_eq_some_iff.mp himm
          simp only [decodeArithImmRm, take8, hmk, hrm, himm, Decoded.instr.injEq] at h
          exact ⟨regOf m, mk, p.1, q.1, q.2, hmk, hwf, hfits,
            by rw [hbs, hrest, List.append_assoc], h.symm⟩

theorem decodeImmAcc_eq_instr {mk : Width → ImmField → Instr} {b : Byte} {bs : List Byte} {i : Instr}
    (h : decodeImmAcc mk b bs = .instr i) :
    ∃ imm rest, imm.fits (widthOfBit (bitOf b 0)) = true ∧ bs = imm.encode ++ rest ∧
      i = mk (widthOfBit (bitOf b 0)) imm := by
  cases himm : takeImm (widthOfBit (bitOf b 0)) bs with
  | none => simp [decodeImmAcc, himm] at h
  | some q =>
    obtain ⟨hfits, hbs⟩ := takeImm_eq_some_iff.mp himm
    simp only [decodeImmAcc, himm, Decoded.instr.injEq] at h
    exact ⟨q.1, q.2, hfits, hbs, h.symm⟩

theorem decodeMovImmReg_eq_instr {b : Byte} {bs : List Byte} {i : Instr}
    (h : decodeMovImmReg b bs = .instr i) :
    ∃ imm rest, imm.fits (widthOfBit (bitOf b 3)) = true ∧ bs = imm.encode ++ rest ∧
      i = .movImmReg (widthOfBit (bitOf b 3)) (b.extractLsb' 0 3) imm := by
  cases himm : takeImm (widthOfBit (bitOf b 3)) bs with
  | none => simp [decodeMovImmReg, himm] at h
  | some q =>
    obtain ⟨hfits, hbs⟩ := takeImm_eq_some_iff.mp himm
    simp only [decodeMovImmReg, himm, Decoded.instr.injEq] at h
    exact ⟨q.1, q.2, hfits, hbs, h.symm⟩

theorem decodeMovMemAcc_eq_instr {mk : Width → Word16 → Instr} {b : Byte} {bs : List Byte} {i : Instr}
    (h : decodeMovMemAcc mk b bs = .instr i) :
    ∃ a rest, bs = bytes16 a ++ rest ∧ i = mk (widthOfBit (bitOf b 0)) a := by
  cases htake : take16 bs with
  | none => simp [decodeMovMemAcc, htake] at h
  | some q =>
    simp only [decodeMovMemAcc, htake, Decoded.instr.injEq] at h
    exact ⟨q.1, q.2, take16_eq_some_iff.mp htake, h.symm⟩

/-! ### The three defined sub-ops (R170 to R173) -/

theorem arithInstr_eq_some {op3 : BitVec 3} {mk : Bool → Width → RmField → ImmField → Instr}
    (h : arithInstr op3 = some mk) :
    (op3 = 0b000#3 ∧ mk = .addImmRm) ∨ (op3 = 0b101#3 ∧ mk = .subImmRm) ∨
      (op3 = 0b111#3 ∧ mk = .cmpImmRm) := by
  unfold arithInstr at h
  split at h
  · next h0 => exact .inl ⟨h0, (Option.some.inj h).symm⟩
  · split at h
    · next h5 => exact .inr (.inl ⟨h5, (Option.some.inj h).symm⟩)
    · split at h
      · next h7 => exact .inr (.inr ⟨h7, (Option.some.inj h).symm⟩)
      · cases h

/-! ### The two round trips -/

theorem encode_jccInstr (c : Cond) (d : Byte) : encode (jccInstr c d) = [c.opcode, d] := by
  cases c <;> rfl

theorem wf_jccInstr (c : Cond) (d : Byte) : (jccInstr c d).wf = true := by
  cases c <;> rfl

theorem cons_eq_cons_append {b b' : Byte} {bs l rest : List Byte} (hb : b' = b)
    (hbs : bs = l ++ rest) : b :: bs = (b' :: l) ++ rest := by
  rw [hb, hbs, List.cons_append]

/-- What decodes is well formed, and the bytes begin with its encoding. -/
theorem wf_and_encode_of_decode {bs : List Byte} {i : Instr} (h : decode bs = .instr i) :
    i.wf = true ∧ ∃ rest, bs = encode i ++ rest := by
  cases bs with
  | nil => cases h
  | cons b bs =>
    cases hclass : classify b with
    | none => rw [decode_cons_of_classify_none bs hclass] at h; cases h
    | some v =>
      have hlead := leadOf_of_classify hclass
      rw [decode_cons_of_classify_some bs hclass] at h
      cases v with
      | jcc c =>
        obtain ⟨d, rest, hbs, rfl⟩ := decodeJcc_eq_instr h
        exact ⟨wf_jccInstr c d, rest, encode_jccInstr c d ▸ cons_eq_cons_append hlead hbs⟩
      | movRmReg | addRmReg | subRmReg | cmpRmReg =>
        obtain ⟨reg, rm, rest, hrm, hbs, rfl⟩ := decodeRmReg_eq_instr h
        exact ⟨hrm, rest, cons_eq_cons_append hlead hbs⟩
      | arithImmRm =>
        obtain ⟨op3, mk, rm, imm, rest, hmk, hrm, himm, hbs, rfl⟩ := decodeArithImmRm_eq_instr h
        have hwf : (rm.wf && imm.fits (arithImmWidth (bitOf b 1) (widthOfBit (bitOf b 0)))) = true :=
          Bool.and_eq_true_iff.mpr ⟨hrm, himm⟩
        rcases arithInstr_eq_some hmk with ⟨rfl, rfl⟩ | ⟨rfl, rfl⟩ | ⟨rfl, rfl⟩ <;>
          exact ⟨hwf, rest, cons_eq_cons_append hlead hbs⟩
      | movImmRm =>
        obtain ⟨reg, rm, imm, rest, hrm, himm, hbs, rfl⟩ := decodeMovImmRm_eq_instr h
        exact ⟨Bool.and_eq_true_iff.mpr ⟨hrm, himm⟩, rest, cons_eq_cons_append hlead hbs⟩
      | addImmAcc | subImmAcc | cmpImmAcc =>
        obtain ⟨imm, rest, himm, hbs, rfl⟩ := decodeImmAcc_eq_instr h
        exact ⟨himm, rest, cons_eq_cons_append hlead hbs⟩
      | movImmReg =>
        obtain ⟨imm, rest, himm, hbs, rfl⟩ := decodeMovImmReg_eq_instr h
        exact ⟨himm, rest, cons_eq_cons_append hlead hbs⟩
      | movMemToAcc | movAccToMem =>
        obtain ⟨a, rest, hbs, rfl⟩ := decodeMovMemAcc_eq_instr h
        exact ⟨rfl, rest, cons_eq_cons_append hlead hbs⟩

theorem decode_encode_rmReg {v : Variant} {mk : Bool → Width → BitVec 3 → RmField → Instr} {op : Op}
    (hv : IsRmReg v mk op) {p : BitVec 6}
    (hlead : ∀ d w, classify (leadP6 p d w) = some v) (d : Bool) (w : Width) (reg : BitVec 3)
    {rm : RmField} (hrm : rm.wf = true) (rest : List Byte) :
    decode (leadP6 p d w :: (rm.encode reg ++ rest)) = .instr (mk d w reg rm) := by
  rw [decode_cons_of_classify_some _ (hlead d w), hv.decodes, decodeRmReg_encode hrm,
    bitOf_leadP6_one, bitOf_leadP6_zero, widthOfBit_bit]

theorem decode_encode_immAcc {v : Variant} {mk : Width → ImmField → Instr} {op : Op}
    (hv : IsImmAcc v mk op) {p : BitVec 7} (hlead : ∀ w, classify (leadP7 p w) = some v) {w : Width}
    {imm : ImmField} (himm : imm.fits w = true) (rest : List Byte) :
    decode (leadP7 p w :: (imm.encode ++ rest)) = .instr (mk w imm) := by
  rw [decode_cons_of_classify_some _ (hlead w), hv.decodes,
    decodeImmAcc_encode mk (by simpa using himm), bitOf_leadP7, widthOfBit_bit]

theorem decode_encode_arithImmRm {op3 : BitVec 3} {mk : Bool → Width → RmField → ImmField → Instr}
    (hmk : arithInstr op3 = some mk) {sx : Bool} {w : Width} {rm : RmField} {imm : ImmField}
    (hwf : (rm.wf && imm.fits (arithImmWidth sx w)) = true) (rest : List Byte) :
    decode (leadP6 0b100000#6 sx w :: (rm.encode op3 ++ imm.encode ++ rest)) =
      .instr (mk sx w rm imm) := by
  obtain ⟨hrm, himm⟩ := Bool.and_eq_true_iff.mp hwf
  have hlead : classify (leadP6 0b100000#6 sx w) = some .arithImmRm := classify_leadOf .arithImmRm sx w 0#3
  rw [decode_cons_of_classify_some _ hlead, decodeVariant,
    decodeArithImmRm_encode hrm op3 _ rest hmk (by simpa using himm), bitOf_leadP6_one,
    bitOf_leadP6_zero, widthOfBit_bit]

theorem decode_encode_movImmRm {w : Width} (xxx : BitVec 3) {rm : RmField} {imm : ImmField}
    (hwf : (rm.wf && imm.fits w) = true) (rest : List Byte) :
    decode (leadP7 0b1100011#7 w :: (rm.encode xxx ++ imm.encode ++ rest)) =
      .instr (.movImmRm w xxx rm imm) := by
  obtain ⟨hrm, himm⟩ := Bool.and_eq_true_iff.mp hwf
  have hlead : classify (leadP7 0b1100011#7 w) = some .movImmRm := classify_leadOf .movImmRm false w 0#3
  rw [decode_cons_of_classify_some _ hlead, decodeVariant,
    decodeMovImmRm_encode hrm xxx _ rest (by simpa using himm), bitOf_leadP7, widthOfBit_bit]

theorem decode_encode_movImmReg {w : Width} (reg : BitVec 3) {imm : ImmField}
    (himm : imm.fits w = true) (rest : List Byte) :
    decode (leadP4 0b1011#4 w reg :: (imm.encode ++ rest)) = .instr (.movImmReg w reg imm) := by
  have hlead : classify (leadP4 0b1011#4 w reg) = some .movImmReg := classify_leadOf .movImmReg false w reg
  rw [decode_cons_of_classify_some _ hlead, decodeVariant,
    decodeMovImmReg_encode (by simpa using himm), bitOf_leadP4, widthOfBit_bit, extractLsb'_leadP4]

theorem decode_encode_movMemAcc {v : Variant} {mk : Width → Word16 → Instr}
    (hv : ∀ b bs, decodeVariant v b bs = decodeMovMemAcc mk b bs) {p : BitVec 7}
    (hlead : ∀ w, classify (leadP7 p w) = some v) (w : Width) (a : Word16) (rest : List Byte) :
    decode (leadP7 p w :: (bytes16 a ++ rest)) = .instr (mk w a) := by
  rw [decode_cons_of_classify_some _ (hlead w), hv, decodeMovMemAcc_encode, bitOf_leadP7,
    widthOfBit_bit]

/-- Settles O8: `decode_encode_*` of the instruction's family. -/
theorem decodeOfEncode : Obligations.DecodeOfEncode := by
  intro i rest hwf
  cases i with
  | je d => exact decode_encode_jccInstr .e d rest
  | jl d => exact decode_encode_jccInstr .l d rest
  | jle d => exact decode_encode_jccInstr .le d rest
  | jb d => exact decode_encode_jccInstr .b d rest
  | jbe d => exact decode_encode_jccInstr .be d rest
  | jpe d => exact decode_encode_jccInstr .pe d rest
  | jo d => exact decode_encode_jccInstr .o d rest
  | js d => exact decode_encode_jccInstr .s d rest
  | jnz d => exact decode_encode_jccInstr .nz d rest
  | jge d => exact decode_encode_jccInstr .ge d rest
  | jg d => exact decode_encode_jccInstr .g d rest
  | jae d => exact decode_encode_jccInstr .ae d rest
  | ja d => exact decode_encode_jccInstr .a d rest
  | jpo d => exact decode_encode_jccInstr .po d rest
  | jno d => exact decode_encode_jccInstr .no d rest
  | movRmReg d w reg rm =>
    exact decode_encode_rmReg isRmReg_mov (classify_leadOf .movRmReg · · 0#3) d w reg hwf rest
  | addRmReg d w reg rm =>
    exact decode_encode_rmReg isRmReg_add (classify_leadOf .addRmReg · · 0#3) d w reg hwf rest
  | subRmReg d w reg rm =>
    exact decode_encode_rmReg isRmReg_sub (classify_leadOf .subRmReg · · 0#3) d w reg hwf rest
  | cmpRmReg d w reg rm =>
    exact decode_encode_rmReg isRmReg_cmp (classify_leadOf .cmpRmReg · · 0#3) d w reg hwf rest
  | addImmRm sx w rm imm => exact decode_encode_arithImmRm rfl hwf rest
  | subImmRm sx w rm imm => exact decode_encode_arithImmRm rfl hwf rest
  | cmpImmRm sx w rm imm => exact decode_encode_arithImmRm rfl hwf rest
  | addImmAcc w imm =>
    exact decode_encode_immAcc isImmAcc_add (classify_leadOf .addImmAcc false · 0#3) hwf rest
  | subImmAcc w imm =>
    exact decode_encode_immAcc isImmAcc_sub (classify_leadOf .subImmAcc false · 0#3) hwf rest
  | cmpImmAcc w imm =>
    exact decode_encode_immAcc isImmAcc_cmp (classify_leadOf .cmpImmAcc false · 0#3) hwf rest
  | movImmReg w reg imm => exact decode_encode_movImmReg reg hwf rest
  | movImmRm w xxx rm imm => exact decode_encode_movImmRm xxx hwf rest
  | movMemToAcc w a =>
    exact decode_encode_movMemAcc (fun _ _ => rfl) (classify_leadOf .movMemToAcc false · 0#3) w a rest
  | movAccToMem w a =>
    exact decode_encode_movMemAcc (fun _ _ => rfl) (classify_leadOf .movAccToMem false · 0#3) w a rest

/-- Settles O9: `wf_and_encode_of_decode`, and an encoding is as long as its instruction. -/
theorem encodeOfDecode : Obligations.EncodeOfDecode := by
  intro bs i h
  obtain ⟨hwf, rest, rfl⟩ := wf_and_encode_of_decode h
  obtain ⟨-, -, hlen⟩ := lengthRange i
  exact ⟨hwf, by simp [hlen], by rw [← hlen, List.take_left]⟩

/-! ### The step on an encoded instruction (R92, R94) -/

theorem step_of_decode {s : State} {i : Instr} (hrun : s.status = .run)
    (h : decode (fetch s) = .instr i) : step s = exec i s := by
  rw [step_run hrun, h, runDecoded]

/-- Settles O15: `step_of_decode`. -/
theorem stepRunsTheDecodedInstruction : Obligations.StepRunsTheDecodedInstruction :=
  fun _ _ hrun h => step_of_decode hrun h

/-- The fetch window of `s` begins with `bs` when the image does so at the cursor. -/
theorem prefix_fetch {s : State} {bs : List Byte} (hmax : bs.length ≤ maxLength)
    (hin : s.pc + bs.length ≤ s.len)
    (h : ∀ k, k < bs.length → bs[k]? = some (byteAt s (s.pc + k))) : bs <+: fetch s := by
  refine List.prefix_iff_getElem?.mpr fun k hk => ?_
  rw [← List.getElem?_eq_getElem hk, h k hk]
  exact bytesFrom_getElem? (by omega) (by omega)

/-- Settles O16: the fetch window begins with the encoding, so decoding it gives the instruction (O8). -/
theorem encodedInstructionAtCursorRuns : Obligations.EncodedInstructionAtCursorRuns := by
  intro s i hrun hwf hin hbytes
  obtain ⟨-, hmax, hlen⟩ := lengthRange i
  obtain ⟨rest, hfetch⟩ := prefix_fetch (hlen.trans_le hmax) (by rwa [hlen]) (by rwa [hlen])
  exact step_of_decode hrun (hfetch ▸ decodeOfEncode i rest hwf)

/-- Six bytes placed at the cursor are what the next step fetches. -/
theorem fetch_placeAtCursor {s : State} (hwf : Memory.wf s.img = true) {bs : List Byte}
    (hlen : bs.length = maxLength) : fetch (placeAtCursor bs s) = bs := by
  have hprefix : bs <+: fetch (placeAtCursor bs s) := by
    refine prefix_fetch hlen.le (Nat.le_max_right _ _) fun k hk => ?_
    rw [byteAt, placeAtCursor_img, placeAtCursor_pc, Memory.read_writeAll hwf, if_pos (by omega),
      Nat.add_sub_cancel_left, List.getD_eq_getElem _ _ hk, List.getElem?_eq_getElem hk]
  refine (hprefix.eq_of_length_le ?_).symm
  rw [fetch, bytesFrom_length, hlen]
  exact Nat.min_le_left _ _

theorem decodeTableWord_eq_some_iff {nbits w : Nat} {i : Instr} :
    decodeTableWord nbits w = some i ↔ decode (tableBytes nbits w) = .instr i := by
  rw [decodeTableWord]
  split <;> simp [*]

theorem length_tableBytes (nbits w : Nat) : (tableBytes nbits w).length = maxLength := by
  simp [tableBytes]

/-- Settles O17: the step fetches exactly the placed word (`fetch_placeAtCursor`). -/
theorem placedTableWordRuns : Obligations.PlacedTableWordRuns := by
  intro s nbits w i hwf hword
  refine step_of_decode (placeAtCursor_status _ s) ?_
  rw [State.withFetchWord, fetch_placeAtCursor hwf (length_tableBytes nbits w)]
  exact decodeTableWord_eq_some_iff.mp hword

end Sys2Proof.Proofs
end

section
/-! PROOFS. The invariants of every step and of a whole pass (spec/10_state.md sections 2 to 4 and 8,
spec/40_classifier.md sections 4 and 5, spec/70_reset_and_hazards.md): each is read off the outcomes of
`step_cases` and `exec_cases`, then carried along a run by one induction. -/

namespace Sys2Proof.Proofs

open Sys2Proof.Machine Sys2Proof.Safety Sys2Proof.Claims Sys2Proof.Laws

/-! ### The image at reset and at the start of a pass -/

theorem passInv_reset : PassInv State.reset := by
  decide

/-- A fresh pass lists exactly the supplied bytes, and its cursor stands at 0. -/
theorem passInv_freshPass (bytes : List Byte) : PassInv (freshPass bytes) := by
  have himg : ImageWf (freshPass bytes) :=
    ⟨Memory.writeAll_wf rfl 0 bytes, Memory.writeAll_below rfl 0 bytes (Nat.zero_add _).le⟩
  refine ⟨himg, Nat.zero_le _, ?_, Nat.le_refl 0⟩
  by_cases h : bytes.length = 0
  · simp [freshPass, StatusAgrees, h]
  · simp [freshPass, StatusAgrees, h, Nat.pos_of_ne_zero h]

theorem byteAt_freshPass (bytes : List Byte) {k : Nat} (hk : k < bytes.length) :
    byteAt (freshPass bytes) k = bytes[k] := by
  rw [byteAt, freshPass, Memory.read_writeAll rfl, if_pos (by omega), Nat.sub_zero,
    List.getD_eq_getElem _ _ hk]

/-! ### The invariant of a pass along one step (R21, R23, R96, R100) -/

section
variable {s : State} (h : PassInv s) (hrun : s.status = .run)

include h hrun in
theorem pc_lt_len_of_run : s.pc < s.len := by
  obtain ⟨-, -, ⟨hin, -, -⟩, -⟩ := h
  exact hin hrun

include h hrun in
theorem passInv_decodedTo (line : Line) {n : Nat} (hn : 2 ≤ n) (hfit : s.pc + n ≤ s.len) :
    PassInv (decodedTo line n s) := by
  obtain ⟨himg, -, -, hlines⟩ := h
  have hlines' : 2 * (decodedTo line n s).out.length ≤ s.pc + n := by
    simp only [decodedTo, List.length_append, List.length_singleton]
    omega
  refine ⟨himg, hfit, ?_, hlines'⟩
  by_cases hend : s.pc + n = s.len
  · simp [StatusAgrees, decodedTo, hend]
  · simp [StatusAgrees, decodedTo, hend, hrun, Nat.lt_of_le_of_ne hfit hend]

include h hrun in
theorem passInv_skippedTo : PassInv (skippedTo s) := by
  have hin : s.pc + 1 ≤ s.len := pc_lt_len_of_run h hrun
  obtain ⟨himg, -, -, hlines⟩ := h
  refine ⟨himg, hin, ?_, Nat.le_succ_of_le hlines⟩
  by_cases hend : s.pc + 1 = s.len
  · simp [StatusAgrees, skippedTo, hend]
  · simp [StatusAgrees, skippedTo, hend, hrun, Nat.lt_of_le_of_ne hin hend]

include h hrun in
theorem passInv_faultedTo : PassInv (faultedTo s) := by
  have hin := pc_lt_len_of_run h hrun
  obtain ⟨himg, hpc, -, hlines⟩ := h
  exact ⟨himg, hpc, ⟨nofun, nofun, fun _ => ⟨rfl, hin⟩⟩, hlines⟩

end

theorem step_keeps_passInv {s t : State} (h : PassInv s) (hstep : step s = .next t) : PassInv t := by
  rcases step_cases s with ⟨-, e⟩ | ⟨hrun, i, -, hfit, e⟩ | ⟨hrun, -, e⟩ | ⟨hrun, e⟩ <;>
    cases e.symm.trans hstep
  · exact h
  · exact passInv_decodedTo h hrun _ (two_le_length i) hfit
  · exact passInv_skippedTo h hrun
  · exact passInv_faultedTo h hrun

/-- Settles O48: each outcome of `step_cases` keeps the invariant. -/
theorem stepKeepsPassInv : Obligations.StepKeepsPassInv := fun _ _ h hstep => step_keeps_passInv h hstep

/-- Settles O47: the fields of `State.reset` are literals. -/
theorem passInvAtReset : Obligations.PassInvAtReset := passInv_reset

/-! ### The host's moves (R33, R240 to R245) -/

/-- Settles O1: the fields of `State.reset`. -/
theorem resetOverEmptyImage : Obligations.ResetOverEmptyImage := ⟨rfl, rfl, rfl, rfl, rfl⟩

/-- Settles O2: outside `RUN` the pass starts in `freshPass bytes`, whose fields are the reset values. -/
theorem startPassLeavesResetValues : Obligations.StartPassLeavesResetValues := fun bytes _ hidle =>
  ⟨freshPass bytes, startPass_eq_some_iff.mpr ⟨hidle, rfl⟩, rfl, rfl, rfl, rfl,
    fun _ hk => byteAt_freshPass bytes hk, passInv_freshPass bytes⟩

/-- Settles O3: the host's moves are guarded by `STATUS`, and reset keeps the image. -/
theorem hostMovesOnlyOutsideRun : Obligations.HostMovesOnlyOutsideRun := fun bytes s =>
  ⟨fun hrun => ⟨by rw [supplyImage, if_pos hrun], by rw [assertReset, if_pos hrun]⟩,
    fun hidle => ⟨resetPass s, by rw [assertReset, if_neg hidle], resetPass_img s, resetPass_len s,
      resetPass_pc s, resetPass_out s, resetPass_status s⟩⟩

/-! ### What one step or one instruction can change -/

/-- Settles O14: in a terminal status the step is idle. -/
theorem terminalStatusIsIdle : Obligations.TerminalStatusIsIdle := by
  rintro s (h | h)
  · exact step_idle (by simp [h])
  · exact step_idle (by simp [h])

/-- Settles O38: `exec_cases`, whose other case needs the bytes inside the image. -/
theorem everyFormTrapsPastTheEnd : Obligations.EveryFormTrapsPastTheEnd := by
  intro i s hout
  rcases exec_cases i s with ⟨hfit, -⟩ | ⟨-, e⟩
  · omega
  · exact e

/-- Settles O39: the two outcomes of `exec_cases`, and that both keep the image. -/
theorem instructionFrame : Obligations.InstructionFrame := by
  intro i s t h
  obtain ⟨hlen, -, hbytes⟩ := exec_keepsImage h
  refine ⟨hlen, hbytes, ?_⟩
  rcases exec_cases i s with ⟨-, e⟩ | ⟨hout, e⟩ <;> cases e.symm.trans h
  · exact .inl ⟨rfl, rfl, _, rfl⟩
  · exact .inr ⟨rfl, rfl, rfl, rfl, hout⟩

/-- Settles O41: of the outcomes of `step_cases`, only the fault writes `FAULT_AT`. -/
theorem faultAtIsWrittenByAFaultOnly : Obligations.FaultAtIsWrittenByAFaultOnly := by
  intro s t h
  rcases step_cases s with ⟨-, e⟩ | ⟨-, _, -, -, e⟩ | ⟨-, -, e⟩ | ⟨hrun, e⟩ <;>
    cases e.symm.trans h
  · exact .inl rfl
  · exact .inl rfl
  · exact .inl rfl
  · exact .inr ⟨hrun, rfl, rfl, rfl, rfl⟩

/-- Settles O51: of the outcomes of `step_cases`, only a decoded instruction appends, and it takes at
least two bytes. -/
theorem outIsAppendOnly : Obligations.OutIsAppendOnly := by
  intro s t h
  rcases step_cases s with ⟨-, e⟩ | ⟨hrun, i, -, -, e⟩ | ⟨-, -, e⟩ | ⟨-, e⟩ <;>
    cases e.symm.trans h
  · exact .inl rfl
  · exact .inr ⟨hrun, Nat.add_le_add_left (two_le_length i) s.pc, _, rfl⟩
  · exact .inl rfl
  · exact .inl rfl

/-- A step in `RUN` moves the cursor forward within the image and follows the end-of-step rule, or it
faults (R23, R96). -/
theorem step_run_cases {s t : State} (hrun : s.status = .run) (h : step s = .next t) :
    (s.pc < t.pc ∧ t.pc ≤ s.len ∧ t.status = if t.pc = s.len then .done else .run) ∨
    (t.status = .faultOob ∧ t.pc = s.pc ∧ t.faultAt = s.pc) := by
  rcases step_cases s with ⟨hidle, -⟩ | ⟨-, i, -, hfit, e⟩ | ⟨-, hin, e⟩ | ⟨-, e⟩
  · exact absurd hrun hidle
  · cases e.symm.trans h
    have hlen := two_le_length i
    exact .inl ⟨Nat.lt_add_of_pos_right (by omega), hfit, by rw [← hrun]; rfl⟩
  · cases e.symm.trans h
    exact .inl ⟨Nat.lt_succ_self _, hin, by rw [← hrun]; rfl⟩
  · cases e.symm.trans h
    exact .inr ⟨rfl, rfl, rfl⟩

/-- Settles O50: `step_run_cases`, told apart by whether the cursor reached `LEN`. -/
theorem statusTransitions : Obligations.StatusTransitions := by
  intro s t _ h
  refine ⟨fun hidle => ?_, fun hrun => ?_⟩
  · cases (step_idle hidle).symm.trans h
    rfl
  · rcases step_run_cases hrun h with ⟨hforward, hin, hstatus⟩ | hfault
    · by_cases hend : t.pc = s.len
      · exact .inr (.inl ⟨by rw [hstatus, if_pos hend], hforward, hend⟩)
      · exact .inl ⟨by rw [hstatus, if_neg hend], hforward, Nat.lt_of_le_of_ne hin hend⟩
    · exact .inr (.inr hfault)

/-! ### A whole pass -/

/-- What every step keeps, every run keeps. -/
theorem run_keeps {P : State → Prop} (hstep : ∀ s t, P s → step s = .next t → P t) (n : Nat)
    {s u : State} (hs : P s) (hrun : core.run n s = .next u) : P u := by
  induction n generalizing s with
  | zero => cases hrun; exact hs
  | succ n ih =>
    obtain ⟨t, e, -⟩ := step_outcome s
    rw [run_succ n e] at hrun
    exact ih (hstep s t hs e) hrun

/-- A run keeps the invariant of a pass, and `LEN`. -/
theorem run_keeps_passInv (n : Nat) {s u : State} (h : PassInv s) (hrun : core.run n s = .next u) :
    PassInv u ∧ u.len = s.len :=
  run_keeps (P := fun t => PassInv t ∧ t.len = s.len)
    (fun _ _ ⟨hinv, hlen⟩ e => ⟨step_keeps_passInv hinv e, (step_keepsImage e).1.trans hlen⟩) n
    ⟨h, rfl⟩ hrun

/-- Settles O54: along the pass the invariant of R100 holds and `LEN` stays the number of bytes, so two
bytes for every line lie below `LEN`. -/
theorem linesAtMostHalfTheImage : Obligations.LinesAtMostHalfTheImage := by
  intro bytes s t u n hstart hrun
  obtain ⟨-, rfl⟩ := startPass_eq_some_iff.mp hstart
  obtain ⟨⟨-, hpc, -, hlines⟩, hlen⟩ := run_keeps_passInv n (passInv_freshPass bytes) hrun
  have hbytes : u.len = bytes.length := hlen
  omega

/-- From a state with the invariant, a terminal status stands where O53 says. -/
theorem terminal_cursor {t : State} (h : PassInv t) :
    (t.status = .done → t.pc = t.len) ∧ (t.status = .faultOob → t.pc = t.faultAt ∧ t.pc < t.len) := by
  obtain ⟨-, -, ⟨-, hdone, hfault⟩, -⟩ := h
  refine ⟨hdone, fun hst => ?_⟩
  obtain ⟨hpc, hin⟩ := hfault hst
  exact ⟨hpc, by omega⟩

theorem terminal_of_ne_run {st : Status} (h : st ≠ .run) : st.terminal = true := by
  cases st with
  | run => exact absurd rfl h
  | done => rfl
  | faultOob => rfl

/-- Some run of at most `LEN - pc` steps reaches a terminal status: in `RUN` a byte is left, and a step
that does not end the pass uses one up. -/
theorem run_reaches_terminal (k : Nat) {s : State} (h : PassInv s) (hk : s.len - s.pc = k) :
    ∃ n t, n ≤ k ∧ core.run n s = .next t ∧ t.status.terminal = true := by
  induction k using Nat.strongRecOn generalizing s with
  | ind k ih =>
    by_cases hrun : s.status = .run
    · obtain ⟨t, e, -⟩ := step_outcome s
      have hleft : s.pc < s.len := pc_lt_len_of_run h hrun
      rcases step_run_cases hrun e with ⟨hforward, hle, -⟩ | ⟨hfault, -⟩
      · obtain ⟨hlen, -⟩ := step_keepsImage e
        obtain ⟨n, u, hn, hu, hterm⟩ :=
          ih (t.len - t.pc) (by omega) (step_keeps_passInv h e) rfl
        exact ⟨n + 1, u, by omega, by rw [run_succ n e, hu], hterm⟩
      · exact ⟨1, t, by omega, run_succ 0 e, by rw [hfault]; rfl⟩
    · exact ⟨0, s, Nat.zero_le k, rfl, terminal_of_ne_run hrun⟩

/-- Settles O53: `run_reaches_terminal`; the run keeps the invariant and `LEN`, which place the cursor. -/
theorem passTerminates : Obligations.PassTerminates := by
  intro s h
  obtain ⟨n, t, hn, hrun, hterm⟩ := run_reaches_terminal _ h rfl
  obtain ⟨hinv, hlen⟩ := run_keeps_passInv n h hrun
  obtain ⟨hdone, hfault⟩ := hlen ▸ terminal_cursor hinv
  exact ⟨n, t, hn, hrun, hterm, hdone, hfault⟩

end Sys2Proof.Proofs
end

section
/-! PROOFS. The canonical listing of an image (spec/20_memory.md section 1, log 1), and the tables of the
spec read off the model: CLASSROM, written words, REGROM and EAROM. -/

namespace Sys2Proof.Proofs

open Sys2Proof.Machine Sys2Proof.Safety Sys2Proof.Claims Sys2Proof.Laws

/-! ### The canonical listing -/

theorem wfFrom_cons_iff {lo k : Nat} {b : Byte} {m : Memory} :
    Memory.wfFrom lo ((k, b) :: m) = true ↔
      lo ≤ k ∧ b ≠ Config.unlistedByte ∧ Memory.wfFrom (k + 1) m = true := by
  simp only [Memory.wfFrom, Bool.and_eq_true, decide_eq_true_eq, and_assoc]

theorem read_cons_self (k : Nat) (b : Byte) (m : Memory) : Memory.read ((k, b) :: m) k = b := by
  rw [Memory.read, if_pos rfl]

theorem read_cons_of_ne {k a : Nat} (h : a ≠ k) (b : Byte) (m : Memory) :
    Memory.read ((k, b) :: m) a = Memory.read m a := by
  rw [Memory.read, if_neg (Ne.symm h)]

/-- An offset that reads a listed byte lies at or beyond the first one a canonical listing may hold. -/
theorem le_of_read_ne_unlisted {m : Memory} {lo a : Nat} (hwf : Memory.wfFrom lo m = true)
    (h : Memory.read m a ≠ Config.unlistedByte) : lo ≤ a :=
  Nat.le_of_not_lt fun hlt => h (Memory.read_below hwf hlt)

/-- The first entry of a listing shows in its reads, so listings with equal reads have the same first
offset; below and at that offset both tails read unlisted. -/
theorem eq_of_read_eq {m m' : Memory} {lo : Nat} (hm : Memory.wfFrom lo m = true)
    (hm' : Memory.wfFrom lo m' = true) (h : ∀ a, Memory.read m a = Memory.read m' a) : m = m' := by
  induction m generalizing m' lo with
  | nil =>
    cases m' with
    | nil => rfl
    | cons c' m' =>
      obtain ⟨-, hb', -⟩ := wfFrom_cons_iff.mp hm'
      exact absurd ((h c'.1).trans (read_cons_self c'.1 c'.2 m')).symm hb'
  | cons c m ih =>
    obtain ⟨k, b⟩ := c
    obtain ⟨-, hb, htail⟩ := wfFrom_cons_iff.mp hm
    cases m' with
    | nil => exact absurd ((read_cons_self k b m).symm.trans (h k)) hb
    | cons c' m' =>
      obtain ⟨k', b'⟩ := c'
      obtain ⟨-, hb', htail'⟩ := wfFrom_cons_iff.mp hm'
      have hread : Memory.read ((k', b') :: m') k = b := (h k).symm.trans (read_cons_self k b m)
      have hread' : Memory.read ((k, b) :: m) k' = b' := (h k').trans (read_cons_self k' b' m')
      have hkk' : k' ≤ k :=
        le_of_read_ne_unlisted (wfFrom_cons_iff.mpr ⟨Nat.le_refl k', hb', htail'⟩) (hread ▸ hb)
      have hk'k : k ≤ k' :=
        le_of_read_ne_unlisted (wfFrom_cons_iff.mpr ⟨Nat.le_refl k, hb, htail⟩) (hread' ▸ hb')
      obtain rfl : k = k' := Nat.le_antisymm hk'k hkk'
      obtain rfl : b = b' := hread.symm.trans (read_cons_self k b' m')
      have hm_eq : m = m' := ih htail htail' fun a => by
        by_cases ha : a = k
        · rw [ha, Memory.read_below htail (Nat.lt_succ_self k),
            Memory.read_below htail' (Nat.lt_succ_self k)]
        · rw [← read_cons_of_ne ha b m, h a, read_cons_of_ne ha b m']
      rw [hm_eq]

/-- Settles O7: `eq_of_read_eq` from offset 0 on. -/
theorem imageListingIsCanonical : Obligations.ImageListingIsCanonical :=
  fun _ _ hm hm' h => eq_of_read_eq hm hm' h

/-! ### The tables -/

theorem classrom_disjoint : ∀ b : Byte, (classrom.filter (rowMatches b)).length ≤ 1 := by
  decide

/-- Settles O11: both statements about bytes are finite, over the 256 bytes. -/
theorem classifierTable : Obligations.ClassifierTable := by
  refine ⟨rfl, classrom_disjoint, ?_⟩
  decide

/-- Settles O10: the decoder evaluated on the seven written words. -/
theorem writtenWordsDecode : Obligations.WrittenWordsDecode := by
  unfold Obligations.WrittenWordsDecode
  decide

/-- Settles O44: the ROMs evaluated at each 3-bit code. -/
theorem romContents : Obligations.RomContents := by
  unfold Obligations.RomContents
  decide

end Sys2Proof.Proofs
end

section
/-! PROOFS. The text of a line (spec/41_operand_blocks.md sections 3, 5 and 6, spec/30_encoding.md section 9):
decimal numerals denote their numbers, and every rendered record matches the grammar R75. -/

namespace Sys2Proof.Proofs

open Sys2Proof.Machine Sys2Proof.Safety Sys2Proof.Claims Sys2Proof.Laws

/-! ### Decimal digits -/

/-- The character of a digit below ten. -/
def digitChar (n : Nat) : Char := Char.ofNat (48 + n)

theorem isDigit_digitChar {n : Nat} (h : n < 10) : IsDigit (digitChar n) := by
  have hall : ∀ n < 10, digitChar n ∈ "0123456789".toList := by decide
  exact hall n h

theorem toNat_digitChar {n : Nat} (h : n < 10) : (digitChar n).toNat = 48 + n := by
  have hall : ∀ n < 10, (digitChar n).toNat = 48 + n := by decide
  exact hall n h

theorem digitChar_ne_zero {n : Nat} (h : n < 10) (hn : 0 < n) : digitChar n ≠ '0' := by
  have hall : ∀ n < 10, 0 < n → digitChar n ≠ '0' := by decide
  exact hall n h hn

/-! ### The numeral of a natural number (R125) -/

theorem digitsAux_append (fuel n : Nat) (acc : Line) :
    digitsAux fuel n acc = digitsAux fuel n [] ++ acc := by
  induction fuel generalizing n acc with
  | zero => rfl
  | succ fuel ih =>
    rw [digitsAux, digitsAux]
    split
    · rfl
    · rw [ih, ih (n / 10) [_], List.append_assoc, List.singleton_append]

/-- The fuel does not matter once it exceeds the number. -/
theorem digitsAux_fuel {f g n : Nat} (hf : n < f) (hg : n < g) :
    digitsAux f n [] = digitsAux g n [] := by
  induction f generalizing g n with
  | zero => omega
  | succ f ih =>
    obtain ⟨g, rfl⟩ : ∃ g', g = g' + 1 := ⟨g - 1, by omega⟩
    rw [digitsAux, digitsAux]
    split
    · rfl
    · rw [digitsAux_append, digitsAux_append g, ih (g := g) (by omega) (by omega)]

theorem decNat_of_lt {n : Nat} (h : n < 10) : decNat n = [digitChar n] := by
  rw [decNat, digitsAux, if_pos h, digitChar]

theorem decNat_of_ge {n : Nat} (h : 10 ≤ n) : decNat n = decNat (n / 10) ++ [digitChar (n % 10)] := by
  rw [decNat, digitsAux, if_neg (by omega), digitsAux_append,
    digitsAux_fuel (g := n / 10 + 1) (by omega) (Nat.lt_succ_self _), decNat, digitChar]

theorem natValue_append_digit (l : Line) {d : Nat} (h : d < 10) :
    natValue (l ++ [digitChar d]) = 10 * natValue l + d := by
  simp only [natValue, List.foldl_append, List.foldl_cons, List.foldl_nil, toNat_digitChar h]
  omega

theorem natValue_decNat (n : Nat) : natValue (decNat n) = n := by
  induction n using Nat.strongRecOn with
  | ind n ih =>
    rcases Nat.lt_or_ge n 10 with h | h
    · rw [decNat_of_lt h, ← List.nil_append [digitChar n], natValue_append_digit [] h]
      exact Nat.zero_add n
    · rw [decNat_of_ge h, natValue_append_digit _ (Nat.mod_lt n (by omega)),
        ih (n / 10) (by omega), Nat.div_add_mod]

theorem isPosNat_append_digit {l : Line} (hl : IsPosNat l) {d : Nat} (h : d < 10) :
    IsPosNat (l ++ [digitChar d]) := by
  obtain ⟨c, rest, rfl, hc, hne, hrest⟩ := hl
  refine ⟨c, rest ++ [digitChar d], rfl, hc, hne, fun x hx => ?_⟩
  rcases List.mem_append.mp hx with hx | hx
  · exact hrest x hx
  · exact List.mem_singleton.mp hx ▸ isDigit_digitChar h

theorem isPosNat_decNat {n : Nat} (hn : 0 < n) : IsPosNat (decNat n) := by
  induction n using Nat.strongRecOn with
  | ind n ih =>
    rcases Nat.lt_or_ge n 10 with h | h
    · exact ⟨digitChar n, [], decNat_of_lt h, isDigit_digitChar h, digitChar_ne_zero h hn, nofun⟩
    · rw [decNat_of_ge h]
      exact isPosNat_append_digit (ih (n / 10) (by omega) (by omega)) (Nat.mod_lt n (by omega))

theorem isNat_decNat (n : Nat) : IsNat (decNat n) := by
  rcases Nat.eq_zero_or_pos n with rfl | hn
  · exact .inl rfl
  · exact .inr (isPosNat_decNat hn)

/-! ### The numeral of an integer -/

theorem isInt_dec (i : Int) : IsInt (dec i) := by
  cases i with
  | ofNat n => exact .inl (isNat_decNat n)
  | negSucc n => exact .inr ⟨decNat (n + 1), isPosNat_decNat n.succ_pos, rfl⟩

/-- A numeral of the grammar's `nat` begins with no minus sign, so it is read as a natural number. -/
theorem intValue_of_isNat {l : Line} (h : IsNat l) : intValue l = natValue l := by
  rcases h with rfl | ⟨c, rest, rfl, hc, -, -⟩
  · rfl
  · have hminus : c ≠ '-' := by
      rintro rfl
      revert hc
      unfold IsDigit
      decide
    rw [intValue]
    exact fun l' he => hminus (List.cons.inj he).1

theorem intValue_dec (i : Int) : intValue (dec i) = i := by
  cases i with
  | ofNat n =>
    rw [dec, intValue_of_isNat (isNat_decNat n), natValue_decNat]
    rfl
  | negSucc n =>
    rw [dec, intValue, natValue_decNat]
    rfl

/-- Settles O46: the two cases of an integer, over the numerals of natural numbers. -/
theorem decimalNumeralDenotesItsNumber : Obligations.DecimalNumeralDenotesItsNumber :=
  fun i => ⟨isInt_dec i, intValue_dec i⟩

/-! ### The grammar of every rendered record (R75, R127) -/

theorem isRegName_regName (w : Width) (f : BitVec 3) : IsRegName (regName w f) := by
  unfold IsRegName
  cases w <;> revert f <;> decide

theorem isBase_earom (rm : BitVec 3) : IsBase (earom rm) := by
  unfold IsBase
  revert rm
  decide

theorem isMem_renderEA (rm : BitVec 3) (disp : Int) : IsMem (renderEA (earom rm) disp) := by
  rw [renderEA]
  split
  · exact .inl ⟨earom rm, isBase_earom rm, rfl⟩
  · exact .inr (.inl ⟨earom rm, dec disp, isBase_earom rm, isInt_dec disp, rfl⟩)

theorem isMem_renderDir (addr : Word16) : IsMem (renderDir addr) :=
  .inr (.inr ⟨decNat addr.toNat, isNat_decNat addr.toNat, rfl⟩)

theorem isImm_kwText (kw : Kw) (i : Int) : IsImm (kwText kw ++ dec i) := by
  cases kw with
  | none => exact .inl (isInt_dec i)
  | byte => exact .inr ⟨"byte".toList, dec i, by simp, isInt_dec i, rfl⟩
  | word => exact .inr ⟨"word".toList, dec i, by simp, isInt_dec i, rfl⟩

theorem isOperand_renderOperand (o : Operand) : IsOperand (renderOperand o) := by
  cases o with
  | reg w f => exact .inl (isRegName_regName w f)
  | imm raw kw => exact .inr (.inr (isImm_kwText kw (immValue raw)))
  | memEA rm dispw disp => exact .inr (.inl (isMem_renderEA rm disp))
  | memDir addr => exact .inr (.inl (isMem_renderDir addr))

theorem isLine_render (r : Record) : IsLine (render r) := by
  cases r with
  | two op w dst src =>
    exact .inl ⟨mnemrom op, renderOperand dst, renderOperand src, by cases op <;> decide,
      isOperand_renderOperand dst, isOperand_renderOperand src, rfl⟩
  | jcc c disp =>
    exact .inr ⟨jccMnemonic c, dec disp.toInt, by cases c <;> decide, isInt_dec disp.toInt, rfl⟩

/-- Settles O49: the one outcome of `step_cases` that appends a line appends a rendered record. -/
theorem stepKeepsLinesInGrammar : Obligations.StepKeepsLinesInGrammar := by
  intro s t hs h
  rcases step_cases s with ⟨-, e⟩ | ⟨-, i, -, -, e⟩ | ⟨-, -, e⟩ | ⟨-, e⟩ <;>
    cases e.symm.trans h
  · exact hs
  · intro l hl
    rcases List.mem_append.mp hl with hold | hnew
    · exact hs l hold
    · exact List.mem_singleton.mp hnew ▸ isLine_render (recordOf i)
  · exact hs
  · exact hs

/-! ### Immediates and the other two kinds of operand (R111, R115, R120, R121) -/

/-- Settles O45: the signed reading by the top bit, unchanged by sign extension; the unsigned reading. -/
theorem immediateValues : Obligations.ImmediateValues := by
  refine ⟨fun b => ⟨?_, ?_⟩, fun _ => rfl⟩
  · rw [immValue, BitVec.toInt_eq_toNat_cond]
    split <;> split <;> omega
  · rw [immValue, BitVec.toInt_signExtend_of_le (by decide)]

theorem renderDir_le16 (lo hi : Byte) :
    renderDir (le16 lo hi) = "[".toList ++ dec (lo.toNat + 256 * hi.toNat : Nat) ++ "]".toList := by
  rw [renderDir, le16_toNat]

/-- A direct address is a numeral in brackets, so its text is not that of the base `bp`. -/
theorem renderDir_ne_bp (addr : Word16) : renderDir addr ≠ "[bp]".toList := by
  intro h
  have hbp : decNat addr.toNat = "bp".toList :=
    List.append_cancel_left (List.append_cancel_right (h : _ = "[".toList ++ "bp".toList ++ "]".toList))
  have hnat : IsNat "bp".toList := hbp ▸ isNat_decNat addr.toNat
  rcases hnat with h0 | ⟨c, rest, hl, hc, -, -⟩
  · exact absurd h0 (by decide)
  · obtain ⟨rfl, -⟩ := List.cons.inj (hl : 'b' :: ['p'] = c :: rest)
    revert hc
    unfold IsDigit
    decide

/-- Settles O43: `takeRm` and `renderOperand` on each kind; the direct address by `renderDir_le16` and
`renderDir_ne_bp`. -/
theorem directAndRegisterOperands : Obligations.DirectAndRegisterOperands := fun w rm lo hi rest =>
  ⟨rfl, renderDir_le16 lo hi, renderDir_ne_bp (le16 lo hi),
    fun hrm => ⟨by simp [takeRm, hrm], rfl⟩, rfl, rfl⟩

end Sys2Proof.Proofs
end

section
/-! PROOFS. The families ARITH_IMM_RM, MOV_IMM_RM, MOV_IMM_REG and MOV_MEM_ACC and the fifteen jump bytes
(spec/42_jcc.md, 44_arith_imm_rm.md, 46_mov_imm_reg.md to 48_mov_mem_acc.md): the step on a leading byte of
each. -/

namespace Sys2Proof.Proofs

open Sys2Proof.Machine Sys2Proof.Safety Sys2Proof.Claims Sys2Proof.Laws

/-! ### A register-or-memory field and an immediate after it (R68, R69) -/

/-- The field's bytes and then an immediate of encoded size `w` are there, so both are taken. -/
theorem takeRm_takeImm_inside {s : State} {w : Width}
    (h : s.pc + (2 + dispBytes s + w.nbytes) ≤ s.len) :
    ∃ bs rest, takeRm (modField s) (rmFieldBits s) (bytesFrom s 4 (s.pc + 2)) =
        some (rmFieldAt s, bs) ∧
      takeImm w bs = some (immFieldAt s (s.pc + (2 + dispBytes s)) w, rest) := by
  have hdisp := dispLen_le (rmFieldAt s)
  rw [dispLen_rmFieldAt] at hdisp
  have hleft : 2 + 2 - dispBytes s = 2 - dispBytes s + 2 := by omega
  have hrm := takeRm_inside 2 (by omega : s.pc + 2 + dispBytes s ≤ s.len)
  rw [hleft, Nat.add_assoc s.pc] at hrm
  exact ⟨_, _, hrm, takeImm_inside (2 - dispBytes s) (by omega)⟩

/-- With the mod-reg-rm byte there and a later byte missing, the field or the immediate is not taken. -/
theorem takeRm_takeImm_outside {s : State} {w : Width} (hmrm : s.pc + 2 ≤ s.len)
    (h : s.len < s.pc + (2 + dispBytes s + w.nbytes)) :
    takeRm (modField s) (rmFieldBits s) (bytesFrom s 4 (s.pc + 2)) = none ∨
    ∃ f bs, takeRm (modField s) (rmFieldBits s) (bytesFrom s 4 (s.pc + 2)) = some (f, bs) ∧
      takeImm w bs = none := by
  rcases Nat.lt_or_ge s.len (s.pc + 2 + dispBytes s) with hdisp | hdisp
  · exact .inl (takeRm_outside 4 hmrm hdisp)
  · exact .inr ⟨_, _, takeRm_inside 2 hdisp, takeImm_outside _ (by omega)⟩

/-- The keyword is that of the encoded size, whatever the destination (R122, `KW_ON_REG`). -/
@[simp] theorem kwFor_eq_kwOf (dst : Operand) (imm : ImmField) : kwFor dst imm = kwOf imm := by
  cases dst <;> rfl

/-- With its keyword the text is that of R122. -/
theorem renderOperand_kwOf_immFieldAt (s : State) (k : Nat) (w : Width) :
    renderOperand (.imm (immFieldAt s (s.pc + k) w) (kwOf (immFieldAt s (s.pc + k) w))) =
      kwImmText s k w.nbytes := by
  cases w <;> rfl

/-- The line of an immediate of encoded size `w'` to the register-or-memory field at the cursor. -/
theorem render_recordImmRm {op : Op} {mnemonic : String} (hop : mnemrom op = mnemonic.toList)
    (w w' : Width) (s : State) :
    render (recordImmRm op w (rmFieldAt s) (immFieldAt s (s.pc + (2 + dispBytes s)) w')) =
      twoLine mnemonic (renderOperand (Claims.rmOf s w)) (kwImmText s (2 + dispBytes s) w'.nbytes) := by
  rw [recordImmRm, render_two hop, kwFor_eq_kwOf, renderOperand_kwOf_immFieldAt, rmOperand_rmFieldAt]

/-- An instruction whose record is an immediate to the field at the cursor, when its bytes fit. -/
theorem exec_immRm {i : Instr} {op : Op} {mnemonic : String} (hop : mnemrom op = mnemonic.toList)
    {w w' : Width} {s : State}
    (hrec : recordOf i =
      recordImmRm op w (rmFieldAt s) (immFieldAt s (s.pc + (2 + dispBytes s)) w'))
    (hlen : i.length = 2 + (rmFieldAt s).dispLen +
      (immFieldAt s (s.pc + (2 + dispBytes s)) w').immLen)
    (hfit : s.pc + (2 + dispBytes s + w'.nbytes) ≤ s.len) :
    exec i s = .next (decodedTo
      (twoLine mnemonic (renderOperand (Claims.rmOf s w)) (kwImmText s (2 + dispBytes s) w'.nbytes))
      (2 + dispBytes s + w'.nbytes) s) := by
  rw [dispLen_rmFieldAt, immLen_immFieldAt] at hlen
  rw [exec_of_fits (by rwa [hlen]), hrec, hlen, render_recordImmRm hop]

/-! ### DecodeArithImmRm (R170, R174, R215) -/

section
variable (b : Byte) {m : Byte} {bs bs' : List Byte}

@[simp] theorem decodeArithImmRm_nil : decodeArithImmRm b [] = .truncated := rfl

/-- An undefined sub-op is found before any byte after the mod-op-rm byte is read. -/
theorem decodeArithImmRm_undefined (h : arithInstr (regOf m) = none) :
    decodeArithImmRm b (m :: bs) = .undefinedSubOp := by
  simp only [decodeArithImmRm, take8, h]

variable {mk : Bool → Width → RmField → ImmField → Instr} (hmk : arithInstr (regOf m) = some mk)

include hmk in
theorem decodeArithImmRm_of_none
    (h : takeRm (modOf m) (Sys2Proof.rmOf m) bs = none ∨
      ∃ f bs', takeRm (modOf m) (Sys2Proof.rmOf m) bs = some (f, bs') ∧
        takeImm (arithImmWidth (bitOf b 1) (widthOfBit (bitOf b 0))) bs' = none) :
    decodeArithImmRm b (m :: bs) = .truncated := by
  rcases h with h | ⟨f, bs', h, h'⟩
  · simp only [decodeArithImmRm, take8, hmk, h]
  · simp only [decodeArithImmRm, take8, hmk, h, h']

include hmk in
theorem decodeArithImmRm_of_some {f : RmField} {imm : ImmField} {rest : List Byte}
    (h : takeRm (modOf m) (Sys2Proof.rmOf m) bs = some (f, bs'))
    (h' : takeImm (arithImmWidth (bitOf b 1) (widthOfBit (bitOf b 0))) bs' = some (imm, rest)) :
    decodeArithImmRm b (m :: bs) =
      .instr (mk (bitOf b 1) (widthOfBit (bitOf b 0)) f imm) := by
  simp only [decodeArithImmRm, take8, hmk, h, h']

end

/-- The sub-op `op3` selects `mk`, and `mk` is the instruction of operation `op`. -/
structure IsArithImm (op3 : BitVec 3) (mk : Bool → Width → RmField → ImmField → Instr) (op : Op) :
    Prop where
  selects : arithInstr op3 = some mk
  length : ∀ sx w rm imm, (mk sx w rm imm).length = 2 + rm.dispLen + imm.immLen
  record : ∀ sx w rm imm, recordOf (mk sx w rm imm) = recordImmRm op w rm imm

theorem isArithImm_add : IsArithImm 0b000#3 .addImmRm .add :=
  ⟨rfl, fun _ _ _ _ => rfl, fun _ _ _ _ => rfl⟩

theorem isArithImm_sub : IsArithImm 0b101#3 .subImmRm .sub :=
  ⟨rfl, fun _ _ _ _ => rfl, fun _ _ _ _ => rfl⟩

theorem isArithImm_cmp : IsArithImm 0b111#3 .cmpImmRm .cmp :=
  ⟨rfl, fun _ _ _ _ => rfl, fun _ _ _ _ => rfl⟩

/-- The encoded size of the immediate of ARITH_IMM_RM at the cursor (R69). -/
def arithSize (s : State) : Width :=
  arithImmWidth (bitOf (byteAfter s 0) 1) (widthOfBit (bitOf (byteAfter s 0) 0))

theorem nbytes_arithSize (s : State) :
    (arithSize s).nbytes = if bitOf (byteAfter s 0) 0 && !bitOf (byteAfter s 0) 1 then 2 else 1 := by
  rw [arithSize]
  cases bitOf (byteAfter s 0) 0 <;> cases bitOf (byteAfter s 0) 1 <;> rfl

/-- The step on a defined sub-op: every byte up to the last immediate byte is there, or one is missing. -/
theorem IsArithImm.rule {op3 : BitVec 3} {mk : Bool → Width → RmField → ImmField → Instr} {op : Op}
    {mnemonic : String} (hv : IsArithImm op3 mk op) (hop : mnemrom op = mnemonic.toList) :
    ArithImmRule op3 mnemonic := by
  intro s hs hmrm hop3
  have hmk : arithInstr (regField s) = some mk := hop3 ▸ hv.selects
  simp only [← nbytes_arithSize]
  rw [DecodesTo, step_of_leads hs, decodeVariant, maxLength, bytesFrom_modRegRm 4 hmrm]
  refine ⟨fun hshort => ?_, fun hfit => ?_⟩
  · rw [decodeArithImmRm_of_none _ hmk (takeRm_takeImm_outside hmrm hshort), runDecoded,
      raiseOutOfBounds_eq]
  · obtain ⟨bs, rest, hrm, himm⟩ := takeRm_takeImm_inside hfit
    rw [decodeArithImmRm_of_some _ hmk hrm himm, runDecoded, widthOfBit_eq_sizeBit]
    exact exec_immRm hop (hv.record _ _ _ _) (hv.length _ _ _ _) hfit

/-- Settles O26: each defined sub-op selects its instruction, so `IsArithImm.rule` applies. -/
theorem arithImmDecoderRule : Obligations.ArithImmDecoderRule :=
  ⟨isArithImm_add.rule rfl, isArithImm_sub.rule rfl, isArithImm_cmp.rule rfl⟩

theorem arithInstr_undefined {op3 : BitVec 3}
    (h : op3 ∈ [0b001#3, 0b010#3, 0b011#3, 0b100#3, 0b110#3]) : arithInstr op3 = none := by
  have hall : ∀ op3 ∈ [0b001#3, 0b010#3, 0b011#3, 0b100#3, 0b110#3],
      (arithInstr op3).isNone = true := by decide
  exact Option.isNone_iff_eq_none.mp (hall op3 h)

theorem step_arithImmRm_no_modOpRm {s : State} (hs : Leads s .arithImmRm) (h : s.len < s.pc + 2) :
    step s = .next (faultedTo s) := by
  rw [step_of_leads hs, decodeVariant, bytesFrom_end _ (by omega), decodeArithImmRm_nil, runDecoded,
    raiseOutOfBounds_eq]

theorem step_arithImmRm_undefined {s : State} (hs : Leads s .arithImmRm) (hmrm : s.pc + 2 ≤ s.len)
    (hop3 : arithInstr (regField s) = none) : step s = .next (skippedTo s) := by
  rw [step_of_leads hs, decodeVariant, maxLength, bytesFrom_modRegRm 4 hmrm,
    decodeArithImmRm_undefined _ hop3, runDecoded, subopSkip, skip_one_eq]

/-- Settles O27: without the mod-op-rm byte nothing decodes; with it an undefined sub-op is found first. -/
theorem undefinedSubOpIsSkipped : Obligations.UndefinedSubOpIsSkipped := fun _ hs =>
  ⟨step_arithImmRm_no_modOpRm hs,
    fun hmrm hop3 => step_arithImmRm_undefined hs hmrm (arithInstr_undefined hop3)⟩

/-! ### DecodeMovImmRm (R195) -/

section
variable (b : Byte) {m : Byte} {bs bs' : List Byte}

@[simp] theorem decodeMovImmRm_nil : decodeMovImmRm b [] = .truncated := rfl

theorem decodeMovImmRm_of_none
    (h : takeRm (modOf m) (Sys2Proof.rmOf m) bs = none ∨
      ∃ f bs', takeRm (modOf m) (Sys2Proof.rmOf m) bs = some (f, bs') ∧
        takeImm (widthOfBit (bitOf b 0)) bs' = none) :
    decodeMovImmRm b (m :: bs) = .truncated := by
  rcases h with h | ⟨f, bs', h, h'⟩
  · simp only [decodeMovImmRm, take8, h]
  · simp only [decodeMovImmRm, take8, h, h']

theorem decodeMovImmRm_of_some {f : RmField} {imm : ImmField} {rest : List Byte}
    (h : takeRm (modOf m) (Sys2Proof.rmOf m) bs = some (f, bs'))
    (h' : takeImm (widthOfBit (bitOf b 0)) bs' = some (imm, rest)) :
    decodeMovImmRm b (m :: bs) = .instr (.movImmRm (widthOfBit (bitOf b 0)) (regOf m) f imm) := by
  simp only [decodeMovImmRm, take8, h, h']

end

/-- Settles O30: no mod-rm byte, that byte with a later one missing, or the whole instruction. -/
theorem movImmRmDecoderRule : Obligations.MovImmRmDecoderRule := by
  intro s hs
  simp only [← nbytes_sizeBit]
  rw [DecodesTo, step_of_leads hs, decodeVariant, maxLength]
  refine ⟨fun hshort => ?_, fun hmrm => ?_⟩
  · rw [bytesFrom_end _ (by omega), decodeMovImmRm_nil, runDecoded, raiseOutOfBounds_eq]
  · rw [bytesFrom_modRegRm 4 hmrm]
    refine ⟨fun hshort => ?_, fun hfit => ?_⟩
    · have htake := takeRm_takeImm_outside hmrm hshort
      rw [← widthOfBit_eq_sizeBit] at htake
      rw [decodeMovImmRm_of_none _ htake, runDecoded, raiseOutOfBounds_eq]
    · obtain ⟨bs, rest, hrm, himm⟩ := takeRm_takeImm_inside hfit
      rw [← widthOfBit_eq_sizeBit] at himm
      rw [decodeMovImmRm_of_some _ hrm himm, runDecoded, widthOfBit_eq_sizeBit]
      exact exec_immRm (op := .mov) rfl rfl rfl hfit

/-! ### DecodeMovImmReg (R190) -/

section
variable {b : Byte} {w : Width} (hw : widthOfBit (bitOf b 3) = w) {bs : List Byte}

include hw in
theorem decodeMovImmReg_of_none (h : takeImm w bs = none) : decodeMovImmReg b bs = .truncated := by
  simp only [decodeMovImmReg, hw, h]

include hw in
theorem decodeMovImmReg_of_some {imm : ImmField} {rest : List Byte}
    (h : takeImm w bs = some (imm, rest)) :
    decodeMovImmReg b bs = .instr (.movImmReg w (b.extractLsb' 0 3) imm) := by
  simp only [decodeMovImmReg, hw, h]

end

/-- The line of an immediate of its own size to a register: no keyword. -/
theorem render_recordImmReg {op : Op} {mnemonic : String} (hop : mnemrom op = mnemonic.toList)
    (w : Width) (f : BitVec 3) (s : State) (k : Nat) :
    render (recordImmReg op w f (immFieldAt s (s.pc + k) w)) =
      twoLine mnemonic (regName w f) (immText s k w.nbytes) := by
  rw [recordImmReg, render_two hop, renderOperand_immFieldAt, renderOperand]

/-- Settles O29: the immediate is there, or a byte of it is missing. -/
theorem movImmRegDecoderRule : Obligations.MovImmRegDecoderRule := by
  intro s hs
  have hw := widthOfBit_eq_sizeBit s 3
  simp only [← nbytes_sizeBit]
  rw [DecodesTo, step_of_leads hs, decodeVariant, maxLength]
  refine ⟨fun hshort => ?_, fun hfit => ?_⟩
  · have htake := takeImm_outside 5 (by omega : s.len < s.pc + 1 + (sizeBit s 3).nbytes)
    rw [decodeMovImmReg_of_none hw htake, runDecoded, raiseOutOfBounds_eq]
  · have htake := takeImm_inside 3 (by omega : s.pc + 1 + (sizeBit s 3).nbytes ≤ s.len)
    have hlen : ∀ f, (Instr.movImmReg (sizeBit s 3) f
        (immFieldAt s (s.pc + 1) (sizeBit s 3))).length = 1 + (sizeBit s 3).nbytes := fun f => by
      rw [Instr.length, immLen_immFieldAt]
    rw [decodeMovImmReg_of_some hw htake, runDecoded, exec_of_fits (by rwa [hlen]), hlen, recordOf,
      render_recordImmReg (op := .mov) rfl]

/-! ### DecodeMovMemAcc (R200) -/

section
variable (mk : Width → Word16 → Instr) (b : Byte) {bs : List Byte}

theorem decodeMovMemAcc_of_none (h : take16 bs = none) : decodeMovMemAcc mk b bs = .truncated := by
  simp only [decodeMovMemAcc, h]

theorem decodeMovMemAcc_of_some {a : Word16} {rest : List Byte} (h : take16 bs = some (a, rest)) :
    decodeMovMemAcc mk b bs = .instr (mk (widthOfBit (bitOf b 0)) a) := by
  simp only [decodeMovMemAcc, h]

end

/-- The step on a leading byte that selects DecodeMovMemAcc with `mk`, in the words of the record. -/
theorem step_movMemAcc {v : Variant} {mk : Width → Word16 → Instr}
    (hv : ∀ b bs, decodeVariant v b bs = decodeMovMemAcc mk b bs)
    (hlen : ∀ w a, (mk w a).length = 3) {s : State} (hs : Leads s v) :
    DecodesTo s 3 (render (recordOf (mk (sizeBit s 0) (wordAfter s 1)))) := by
  rw [DecodesTo, step_of_leads hs, hv, maxLength]
  refine ⟨fun hshort => ?_, fun hfit => ?_⟩
  · rw [decodeMovMemAcc_of_none mk _ (take16_outside 5 (by omega)), runDecoded, raiseOutOfBounds_eq]
  · rw [decodeMovMemAcc_of_some mk _ (take16_inside 3 (by omega)), runDecoded,
      exec_of_fits (by rwa [hlen]), hlen, widthOfBit_eq_sizeBit]
    rfl

/-- Settles O31: `step_movMemAcc` in both directions, with the accumulator's name by bit 0. -/
theorem movMemAccDecoderRule : Obligations.MovMemAccDecoderRule := by
  refine ⟨fun s hs => ?_, fun s hs => ?_⟩
  · rw [← renderOperand_accumulator_sizeBit]
    exact step_movMemAcc (mk := .movMemToAcc) (fun _ _ => rfl) (fun _ _ => rfl) hs
  · rw [← renderOperand_accumulator_sizeBit]
    exact step_movMemAcc (mk := .movAccToMem) (fun _ _ => rfl) (fun _ _ => rfl) hs

/-! ### The fifteen jump bytes (R64) and the last offset (R98) -/

/-- CLASS and the mnemonic of every row of the jump table. -/
theorem jumpTable_row {p : Byte × Cond × String} (hp : p ∈ jumpTable) :
    classify p.1 = some (.jcc p.2.1) ∧ jccMnemonic p.2.1 = p.2.2.toList := by
  have hall : ∀ p ∈ jumpTable,
      classify p.1 = some (.jcc p.2.1) ∧ jccMnemonic p.2.1 = p.2.2.toList := by decide
  exact hall p hp

/-- Settles O23: the byte leads its row's condition, so `step_jcc` applies. -/
theorem fifteenJumpBytes : Obligations.FifteenJumpBytes := by
  intro p hp s hrun hin hbyte
  obtain ⟨hclass, hname⟩ := jumpTable_row hp
  have hs : Leads s (.jcc p.2.1) := ⟨hrun, hin, (congrArg classify hbyte).trans hclass⟩
  exact hname ▸ step_jcc hs

/-- Settles O19: the unrecognised byte is skipped, and the cursor is then at `LEN`. -/
theorem unrecognisedLastByteEndsThePass : Obligations.UnrecognisedLastByteEndsThePass := by
  intro s hrun hlast hclass
  exact ⟨_, step_skips_of_classify_none hrun (by omega) hclass, if_pos hlast, hlast, rfl, rfl⟩

end Sys2Proof.Proofs
end

section
/-! PROOFS. Every instruction whose bytes lie in the image completes (spec/42_jcc.md to 48_mov_mem_acc.md):
its line, its length, and nothing else. -/

namespace Sys2Proof.Proofs

open Sys2Proof.Machine Sys2Proof.Safety Sys2Proof.Claims Sys2Proof.Laws

/-- An instruction of `n` bytes with a given line, when it fits. -/
theorem exec_completes {i : Instr} {n : Nat} {line : Line} {s : State} (hlen : i.length = n)
    (hline : render (recordOf i) = line) (hfit : s.pc + n ≤ s.len) :
    exec i s = .next (decodedTo line n s) := by
  subst hlen hline
  exact exec_of_fits hfit

/-- Settles O32: `exec_jccInstr` at each condition. -/
theorem jumpsComplete : Obligations.JumpsComplete := fun _ _ hfit =>
  ⟨exec_jccInstr (c := .e) hfit, exec_jccInstr (c := .l) hfit, exec_jccInstr (c := .le) hfit,
    exec_jccInstr (c := .b) hfit, exec_jccInstr (c := .be) hfit, exec_jccInstr (c := .pe) hfit,
    exec_jccInstr (c := .o) hfit, exec_jccInstr (c := .s) hfit, exec_jccInstr (c := .nz) hfit,
    exec_jccInstr (c := .ge) hfit, exec_jccInstr (c := .g) hfit, exec_jccInstr (c := .ae) hfit,
    exec_jccInstr (c := .a) hfit, exec_jccInstr (c := .po) hfit, exec_jccInstr (c := .no) hfit⟩

/-- The family RM_REG in both directions. -/
theorem IsRmReg.completes {v : Variant} {mk : Bool → Width → BitVec 3 → RmField → Instr} {op : Op}
    {mnemonic : String} (hv : IsRmReg v mk op) (hop : mnemrom op = mnemonic.toList) (d : Bool)
    (w : Width) (reg : BitVec 3) {rm : RmField} {s : State} (hfit : s.pc + (2 + rm.dispLen) ≤ s.len) :
    exec (mk d w reg rm) s = .next (decodedTo
      (if d then twoLine mnemonic (regName w reg) (renderOperand (rmOperand w rm))
       else twoLine mnemonic (renderOperand (rmOperand w rm)) (regName w reg)) (2 + rm.dispLen) s) :=
  exec_completes (hv.length d w reg rm) (by rw [hv.record, render_recordRmReg hop]) hfit

/-- Settles O33: `IsRmReg.completes` for the four operations, with `d = 1` and `d = 0`. -/
theorem rmRegFormsComplete : Obligations.RmRegFormsComplete := fun w reg _ _ hfit =>
  ⟨isRmReg_mov.completes rfl true w reg hfit, isRmReg_mov.completes rfl false w reg hfit,
    isRmReg_add.completes rfl true w reg hfit, isRmReg_add.completes rfl false w reg hfit,
    isRmReg_sub.completes rfl true w reg hfit, isRmReg_sub.completes rfl false w reg hfit,
    isRmReg_cmp.completes rfl true w reg hfit, isRmReg_cmp.completes rfl false w reg hfit⟩

/-- The text of an immediate to register-or-memory: the keyword of its size, and its number. -/
theorem render_recordImmRm_eq {op : Op} {mnemonic : String} (hop : mnemrom op = mnemonic.toList)
    (w : Width) (rm : RmField) (imm : ImmField) :
    render (recordImmRm op w rm imm) =
      twoLine mnemonic (renderOperand (rmOperand w rm)) (kwText (kwOf imm) ++ dec (immValue imm)) := by
  rw [recordImmRm, render_two hop, kwFor_eq_kwOf, renderOperand]

/-- Settles O34: a one-byte immediate has the keyword `byte` and its signed number. -/
theorem byteImmediateToRmCompletes : Obligations.ByteImmediateToRmCompletes := by
  intro sx w xxx rm raw s hfit
  have hlen : 2 + rm.dispLen + 1 = 3 + rm.dispLen := by omega
  have hline {op : Op} {mnemonic : String} (hop : mnemrom op = mnemonic.toList) :=
    render_recordImmRm_eq hop w rm (.imm8 raw)
  exact ⟨exec_completes hlen (hline (op := .add) rfl) hfit,
    exec_completes hlen (hline (op := .sub) rfl) hfit,
    exec_completes hlen (hline (op := .cmp) rfl) hfit,
    exec_completes hlen (hline (op := .mov) rfl) hfit⟩

/-- Settles O35: a two-byte immediate has the keyword `word` and its unsigned number. -/
theorem wordImmediateToRmCompletes : Obligations.WordImmediateToRmCompletes := by
  intro sx w xxx rm raw s hfit
  have hlen : 2 + rm.dispLen + 2 = 4 + rm.dispLen := by omega
  have hline {op : Op} {mnemonic : String} (hop : mnemrom op = mnemonic.toList) :=
    render_recordImmRm_eq hop w rm (.imm16 raw)
  exact ⟨exec_completes hlen (hline (op := .add) rfl) hfit,
    exec_completes hlen (hline (op := .sub) rfl) hfit,
    exec_completes hlen (hline (op := .cmp) rfl) hfit,
    exec_completes hlen (hline (op := .mov) rfl) hfit⟩

/-- The text of an immediate to a named register: no keyword. -/
theorem render_recordImmReg_eq {op : Op} {mnemonic : String} (hop : mnemrom op = mnemonic.toList)
    (w : Width) (f : BitVec 3) (imm : ImmField) :
    render (recordImmReg op w f imm) = twoLine mnemonic (regName w f) (dec (immValue imm)) := by
  rw [recordImmReg, render_two hop]
  rfl

/-- Settles O36: `render_recordImmReg_eq` at both sizes, the accumulator being register 000. -/
theorem immediateToRegisterCompletes : Obligations.ImmediateToRegisterCompletes := by
  intro reg b v s
  refine ⟨fun hfit => ?_, fun hfit => ?_⟩
  · have hline {op : Op} {mnemonic : String} (hop : mnemrom op = mnemonic.toList) (f : BitVec 3) :=
      render_recordImmReg_eq hop .byte f (.imm8 b)
    exact ⟨exec_completes rfl (hline (op := .add) rfl 0#3) hfit,
      exec_completes rfl (hline (op := .sub) rfl 0#3) hfit,
      exec_completes rfl (hline (op := .cmp) rfl 0#3) hfit,
      exec_completes rfl (hline (op := .mov) rfl reg) hfit⟩
  · have hline {op : Op} {mnemonic : String} (hop : mnemrom op = mnemonic.toList) (f : BitVec 3) :=
      render_recordImmReg_eq hop .word f (.imm16 v)
    exact ⟨exec_completes rfl (hline (op := .add) rfl 0#3) hfit,
      exec_completes rfl (hline (op := .sub) rfl 0#3) hfit,
      exec_completes rfl (hline (op := .cmp) rfl 0#3) hfit,
      exec_completes rfl (hline (op := .mov) rfl reg) hfit⟩

/-- Settles O37: the record of each direction and width. -/
theorem movMemAccCompletes : Obligations.MovMemAccCompletes := fun _ _ hfit =>
  ⟨exec_completes rfl (render_two (op := .mov) rfl _ _ _) hfit,
    exec_completes rfl (render_two (op := .mov) rfl _ _ _) hfit,
    exec_completes rfl (render_two (op := .mov) rfl _ _ _) hfit,
    exec_completes rfl (render_two (op := .mov) rfl _ _ _) hfit⟩

end Sys2Proof.Proofs
end

section
/-! PROOFS. When a step faults (spec/60_exceptions.md sections 1 and 2): the table of R212, variant by variant,
from the rule of each family. -/

namespace Sys2Proof.Proofs

open Sys2Proof.Machine Sys2Proof.Safety Sys2Proof.Claims Sys2Proof.Laws

/-! ### A faulting step is told apart by its cursor -/

theorem next_ne_faultedTo {s t : State} (h : s.pc < t.pc) :
    (Host.Outcome.next t : Host.Outcome State Fault Refusal) ≠ .next (faultedTo s) := by
  intro e
  cases e
  exact absurd h (Nat.lt_irrefl s.pc)

section
variable {s : State} {n : Nat} {line : Line} (hn : 0 < n)

include hn in
/-- A variant that needs its first `n` bytes. -/
theorem faults_iff_of_decodesTo (h : DecodesTo s n line) :
    step s = .next (faultedTo s) ↔ s.len < s.pc + n := by
  obtain ⟨hfault, hdecoded⟩ := h
  refine ⟨fun e => Nat.lt_of_not_le fun hfit => ?_, hfault⟩
  rw [hdecoded hfit] at e
  exact next_ne_faultedTo (Nat.lt_add_of_pos_right hn) e

include hn in
/-- A variant whose second byte tells how many it needs. -/
theorem faults_iff_of_secondByte (hshort : s.len < s.pc + 2 → step s = .next (faultedTo s))
    (h : s.pc + 2 ≤ s.len → DecodesTo s n line) :
    step s = .next (faultedTo s) ↔ s.len < s.pc + 2 ∨ s.len < s.pc + n := by
  rcases Nat.lt_or_ge s.len (s.pc + 2) with hlt | hge
  · exact ⟨fun _ => .inl hlt, fun _ => hshort hlt⟩
  · rw [faults_iff_of_decodesTo hn (h hge), or_iff_right (Nat.not_lt.mpr hge)]

end

/-! ### The families -/

theorem faults_iff_rmReg {v : Variant} {mnemonic : String} (hv : RmRegRule v mnemonic) {s : State}
    (hs : Leads s v) :
    step s = .next (faultedTo s) ↔ s.len < s.pc + 2 ∨ s.len < s.pc + 2 + dispBytes s := by
  obtain ⟨hshort, hrest⟩ := hv s hs
  rw [Nat.add_assoc s.pc]
  exact faults_iff_of_secondByte (by omega) hshort hrest

theorem faults_iff_immAcc {v : Variant} {mnemonic : String} (hv : ImmAccRule v mnemonic) {s : State}
    (hs : Leads s v) :
    step s = .next (faultedTo s) ↔
      s.len < s.pc + 1 + (if bitOf (byteAfter s 0) 0 then 2 else 1) := by
  rw [Nat.add_assoc s.pc, apply_ite (1 + ·)]
  exact faults_iff_of_decodesTo (by split <;> omega) (hv s hs)

theorem faults_iff_movImmReg {s : State} (hs : Leads s .movImmReg) :
    step s = .next (faultedTo s) ↔
      s.len < s.pc + 1 + (if bitOf (byteAfter s 0) 3 then 2 else 1) := by
  rw [Nat.add_assoc s.pc]
  exact faults_iff_of_decodesTo (by omega) (movImmRegDecoderRule s hs)

theorem faults_iff_movImmRm {s : State} (hs : Leads s .movImmRm) :
    step s = .next (faultedTo s) ↔ s.len < s.pc + 2 ∨
      s.len < s.pc + 2 + dispBytes s + (if bitOf (byteAfter s 0) 0 then 2 else 1) := by
  obtain ⟨hshort, hrest⟩ := movImmRmDecoderRule s hs
  rw [Nat.add_assoc s.pc, Nat.add_assoc s.pc]
  exact faults_iff_of_secondByte (by omega) hshort hrest

theorem faults_iff_arithImmRm_defined {op3 : BitVec 3} {mnemonic : String}
    (hv : ArithImmRule op3 mnemonic) {s : State} (hs : Leads s .arithImmRm) (hop3 : regField s = op3) :
    step s = .next (faultedTo s) ↔ s.len < s.pc + 2 ∨
      s.len < s.pc + 2 + dispBytes s +
        (if bitOf (byteAfter s 0) 0 && !bitOf (byteAfter s 0) 1 then 2 else 1) := by
  rw [Nat.add_assoc s.pc, Nat.add_assoc s.pc]
  exact faults_iff_of_secondByte (by omega) (step_arithImmRm_no_modOpRm hs)
    fun hmrm => hv s hs hmrm hop3

/-- With an undefined sub-op only the mod-op-rm byte is needed (R215, D18). -/
theorem faults_iff_arithImmRm_undefined {s : State} (hs : Leads s .arithImmRm)
    (hop3 : arithInstr (regField s) = none) :
    step s = .next (faultedTo s) ↔ s.len < s.pc + 2 := by
  refine ⟨fun e => Nat.lt_of_not_le fun hmrm => ?_, step_arithImmRm_no_modOpRm hs⟩
  rw [step_arithImmRm_undefined hs hmrm hop3] at e
  exact next_ne_faultedTo (Nat.lt_succ_self s.pc) e

theorem isNone_ruleSubOp (op3 : BitVec 3) :
    (ruleSubOp op3).isNone = (arithInstr op3).isNone := by
  revert op3
  decide

/-- The sub-ops: one of the three defined ones with its operation and rule, or none. -/
theorem subOp_cases (op3 : BitVec 3) :
    (op3 ∈ [0b000#3, 0b101#3, 0b111#3] ∧ ∃ op mnemonic, ruleSubOp op3 = some op ∧
      mnemrom op = String.toList mnemonic ∧ ArithImmRule op3 mnemonic) ∨
    (op3 ∉ [0b000#3, 0b101#3, 0b111#3] ∧ ruleSubOp op3 = none ∧ arithInstr op3 = none) := by
  obtain ⟨hadd, hsub, hcmp⟩ := arithImmDecoderRule
  cases hmk : arithInstr op3 with
  | none =>
    refine .inr ⟨fun hmem => ?_, by simpa [hmk] using isNone_ruleSubOp op3, rfl⟩
    simp only [List.mem_cons, List.not_mem_nil, or_false] at hmem
    rcases hmem with rfl | rfl | rfl <;> cases hmk
  | some mk =>
    rcases arithInstr_eq_some hmk with ⟨rfl, -⟩ | ⟨rfl, -⟩ | ⟨rfl, -⟩
    · exact .inl ⟨by decide, .add, _, rfl, rfl, hadd⟩
    · exact .inl ⟨by decide, .sub, _, rfl, rfl, hsub⟩
    · exact .inl ⟨by decide, .cmp, _, rfl, rfl, hcmp⟩

theorem faults_iff_arithImmRm {s : State} (hs : Leads s .arithImmRm) :
    step s = .next (faultedTo s) ↔ s.len < s.pc + 2 ∨
      (regField s ∈ [0b000#3, 0b101#3, 0b111#3] ∧ s.len < s.pc + 2 + dispBytes s +
        (if bitOf (byteAfter s 0) 0 && !bitOf (byteAfter s 0) 1 then 2 else 1)) := by
  rcases subOp_cases (regField s) with
    ⟨hmem, -, _, -, -, hrule⟩ | ⟨hmem, -, hop3⟩
  · rw [faults_iff_arithImmRm_defined hrule hs rfl, and_iff_right hmem]
  · rw [faults_iff_arithImmRm_undefined hs hop3, or_iff_left fun h => hmem h.1]

/-! ### The table of R212 -/

theorem faults_iff_missing {s : State} {v : Variant} (hs : Leads s v) :
    step s = .next (faultedTo s) ↔ Missing s := by
  obtain ⟨hmov, hadd, hsub, hcmp⟩ := rmRegDecoderRule
  obtain ⟨haddAcc, hsubAcc, hcmpAcc⟩ := immAccDecoderRule
  obtain ⟨htoAcc, htoMem⟩ := movMemAccDecoderRule
  have hclass : classify (byteAfter s 0) = some v := hs.2.2
  simp only [Missing, hclass]
  cases v with
  | jcc c => exact faults_iff_of_decodesTo (by omega) (step_jcc hs)
  | movMemToAcc => exact faults_iff_of_decodesTo (by omega) (htoAcc s hs)
  | movAccToMem => exact faults_iff_of_decodesTo (by omega) (htoMem s hs)
  | movImmRm => exact faults_iff_movImmRm hs
  | addImmAcc => exact faults_iff_immAcc haddAcc hs
  | subImmAcc => exact faults_iff_immAcc hsubAcc hs
  | cmpImmAcc => exact faults_iff_immAcc hcmpAcc hs
  | movRmReg => exact faults_iff_rmReg hmov hs
  | addRmReg => exact faults_iff_rmReg hadd hs
  | subRmReg => exact faults_iff_rmReg hsub hs
  | cmpRmReg => exact faults_iff_rmReg hcmp hs
  | arithImmRm => exact faults_iff_arithImmRm hs
  | movImmReg => exact faults_iff_movImmReg hs

/-- Settles O40: a byte without a variant is skipped and needs nothing more; the others are the rows of
`faults_iff_missing`. -/
theorem faultsExactlyWhenBytesAreMissing : Obligations.FaultsExactlyWhenBytesAreMissing := by
  intro s hrun hin
  cases hclass : classify (byteAfter s 0) with
  | none =>
    have hskip : step s = .next (skippedTo s) := step_skips_of_classify_none hrun hin hclass
    have hmissing : ¬Missing s := by simp [Missing, hclass]
    rw [hskip]
    exact iff_of_false (next_ne_faultedTo (Nat.lt_succ_self s.pc)) hmissing
  | some v => exact faults_iff_missing ⟨hrun, hin, hclass⟩

/-- Every variant needs a second byte. -/
theorem missing_of_last {s : State} {v : Variant} (hclass : classify (byteAfter s 0) = some v)
    (hlast : s.pc + 1 = s.len) : Missing s := by
  have hsecond : s.len < s.pc + 2 := by omega
  have himm : ∀ k, s.len < s.pc + 1 + (if bitOf (byteAfter s 0) k then 2 else 1) := fun k => by
    split <;> omega
  simp only [Missing, hclass]
  cases v with
  | jcc c => exact hsecond
  | movMemToAcc | movAccToMem => exact Nat.lt_succ_of_lt hsecond
  | movImmRm | arithImmRm | movRmReg | addRmReg | subRmReg | cmpRmReg => exact .inl hsecond
  | addImmAcc | subImmAcc | cmpImmAcc => exact himm 0
  | movImmReg => exact himm 3

/-- Settles O20: at the last offset the second byte is missing, so O40 says that the step faults. -/
theorem recognisedLastByteFaults : Obligations.RecognisedLastByteFaults := by
  intro s v hrun hlast hclass
  exact (faultsExactlyWhenBytesAreMissing s hrun (by omega)).mpr (missing_of_last hclass hlast)

end Sys2Proof.Proofs
end

section
/-! PROOFS. The step is the rules' pseudocode (spec/40_classifier.md R92, R93 and the decoders they call):
each rule decoder, read by read, needs the same bytes as the step and answers the record whose line the step
appends. -/

namespace Sys2Proof.Proofs

open Sys2Proof.Machine Sys2Proof.Safety Sys2Proof.Claims Sys2Proof.Laws

/-! ### The end of a rule step -/

section
variable {s : State} (hrun : s.status = .run)

include hrun in
theorem ruleStep_of_error (h : ruleResult s = .error .outOfBounds) : ruleStep s = faultedTo s := by
  simp only [ruleStep, hrun, h, ne_eq, not_true_eq_false, if_false, faultedTo]

include hrun in
theorem ruleStep_of_skip (h : ruleResult s = .ok .skip) : ruleStep s = skippedTo s := by
  simp only [ruleStep, hrun, h, ne_eq, not_true_eq_false, if_false, ruleEnd, skippedTo]
  split <;> rfl

include hrun in
theorem ruleStep_of_decoded {r : Record} {n : Nat} (h : ruleResult s = .ok (.decoded r n)) :
    ruleStep s = decodedTo (render r) n s := by
  simp only [ruleStep, hrun, h, ne_eq, not_true_eq_false, if_false, ruleEnd, decodedTo]
  split <;> rfl

end

/-- The reads of the first `n` bytes all answer and give record `r`, or one of them raises. -/
def RuleReads (s : State) (n : Nat) (r : Record) (res : Except Fault RuleResult) : Prop :=
  (s.len < s.pc + n → res = .error .outOfBounds) ∧ (s.pc + n ≤ s.len → res = .ok (.decoded r n))

/-- The step and the rules' step need the same bytes and append the same line. -/
theorem step_eq_ruleStep {s : State} {n : Nat} {r : Record} {line : Line} (hrun : s.status = .run)
    (hstep : DecodesTo s n line) (hrule : RuleReads s n r (ruleResult s)) (hline : render r = line) :
    step s = .next (ruleStep s) := by
  rcases Nat.lt_or_ge s.len (s.pc + n) with h | h
  · rw [hstep.1 h, ruleStep_of_error hrun (hrule.1 h)]
  · rw [hstep.2 h, ruleStep_of_decoded hrun (hrule.2 h), hline]

/-! ### The operand blocks (R105, R110, R119) -/

theorem ruleMrm_inside {s : State} (h : s.pc + 2 ≤ s.len) :
    ruleMrm s (s.pc + 1) = .ok (modField s, regField s, rmFieldBits s) := by
  rw [ruleMrm, memRead1_inside h]
  rfl

theorem ruleMrm_outside {s : State} (h : s.len < s.pc + 2) :
    ruleMrm s (s.pc + 1) = .error .outOfBounds := by
  rw [ruleMrm, memRead1_outside (Nat.le_of_lt_succ h)]
  rfl

theorem ruleRmOperand_inside {s : State} (w : Width) (h : s.pc + 2 + dispBytes s ≤ s.len) :
    ruleRmOperand s (modField s) (rmFieldBits s) w (s.pc + 2) =
      .ok (rmOperand w (rmFieldAt s), dispBytes s) := by
  rcases rmFieldAt_cases s with
    ⟨hm, hf, hn⟩ | ⟨hm, hf, hn⟩ | ⟨hm, hf, hn⟩ | ⟨hm, hrm, hf, hn⟩ | ⟨hm, hrm, hf, hn⟩ <;>
    rw [hn] at h ⊢ <;> rw [hf, hm, ruleRmOperand]
  · rfl
  · rw [memRead1_inside h]
    rfl
  · rw [memRead2_inside h]
    rfl
  · rw [hrm, memRead2_inside h]
    rfl
  · simp [hrm, rmOperand, pure, Except.pure]

theorem ruleRmOperand_outside {s : State} (w : Width) (hmrm : s.pc + 2 ≤ s.len)
    (h : s.len < s.pc + 2 + dispBytes s) :
    ruleRmOperand s (modField s) (rmFieldBits s) w (s.pc + 2) = .error .outOfBounds := by
  rcases rmFieldAt_cases s with
    ⟨hm, -, hn⟩ | ⟨hm, -, hn⟩ | ⟨hm, -, hn⟩ | ⟨hm, hrm, -, hn⟩ | ⟨hm, hrm, -, hn⟩ <;>
    rw [hn] at h
  · omega
  · rw [hm, ruleRmOperand, memRead1_outside (Nat.le_of_lt_succ h)]
    rfl
  · rw [hm, ruleRmOperand, memRead2_outside (Nat.le_of_lt_succ h)]
    rfl
  · rw [hm, hrm, ruleRmOperand, memRead2_outside (Nat.le_of_lt_succ h)]
    rfl
  · omega

theorem ruleReadImm_inside {s : State} {a : Nat} {w : Width} (kw : Kw) (h : a + w.nbytes ≤ s.len) :
    ruleReadImm s a w.nbytes kw = .ok (.imm (immFieldAt s a w) kw) := by
  cases w with
  | byte => rw [ruleReadImm, memRead1_inside h]; rfl
  | word => rw [ruleReadImm, memRead2_inside h]; rfl

theorem ruleReadImm_outside {s : State} {a : Nat} {w : Width} (kw : Kw) (h : s.len < a + w.nbytes) :
    ruleReadImm s a w.nbytes kw = .error .outOfBounds := by
  cases w with
  | byte => rw [ruleReadImm, memRead1_outside (Nat.le_of_lt_succ h)]; rfl
  | word => rw [ruleReadImm, memRead2_outside (Nat.le_of_lt_succ h)]; rfl

/-! ### The rule decoders -/

theorem ruleReads_jcc (s : State) (c : Cond) :
    RuleReads s 2 (.jcc c (byteAfter s 1)) (ruleDecodeJcc s c s.pc) := by
  refine ⟨fun h => ?_, fun h => ?_⟩
  · rw [ruleDecodeJcc, memRead1_outside (Nat.le_of_lt_succ h)]
    rfl
  · rw [ruleDecodeJcc, memRead1_inside h]
    rfl

theorem ruleDecodeRmReg_no_modRegRm {s : State} (op : Op) (b : Byte) (h : s.len < s.pc + 2) :
    ruleDecodeRmReg s op b s.pc = .error .outOfBounds := by
  rw [ruleDecodeRmReg, ruleMrm_outside h]
  rfl

theorem ruleReads_rmReg {s : State} (op : Op) (hmrm : s.pc + 2 ≤ s.len) :
    RuleReads s (2 + dispBytes s)
      (recordRmReg op (bitOf (byteAfter s 0) 1) (sizeBit s 0) (regField s) (rmFieldAt s))
      (ruleDecodeRmReg s op (byteAfter s 0) s.pc) := by
  have hwidth : ruleWidth (bitOf (byteAfter s 0) 0) = sizeBit s 0 := rfl
  rw [RuleReads, ← Nat.add_assoc]
  refine ⟨fun h => ?_, fun h => ?_⟩
  · simp only [ruleDecodeRmReg, ruleMrm_inside hmrm, bind, Except.bind,
      ruleRmOperand_outside _ hmrm h]
  · simp only [ruleDecodeRmReg, ruleMrm_inside hmrm, bind, Except.bind, ruleRmOperand_inside _ h,
      hwidth, recordRmReg]
    cases bitOf (byteAfter s 0) 1 <;> rfl

/-- What R170 and R195 share after the mod-reg-rm byte: the operand, then an immediate of encoded size
`w'` with its keyword. -/
def ruleImmRm (s : State) (op : Op) (w w' : Width) : Except Fault RuleResult := do
  let (m, k) ← ruleRmOperand s (modField s) (rmFieldBits s) w (s.pc + 2)
  let i ← ruleReadImm s (s.pc + 2 + k) w'.nbytes (if w'.nbytes = 1 then .byte else .word)
  return .decoded (.two op w m i) (2 + k + w'.nbytes)

theorem kwOf_immFieldAt (s : State) (a : Nat) (w : Width) :
    kwOf (immFieldAt s a w) = if w.nbytes = 1 then .byte else .word := by
  cases w <;> rfl

theorem ruleReads_immRm {s : State} (op : Op) (w w' : Width) (hmrm : s.pc + 2 ≤ s.len) :
    RuleReads s (2 + dispBytes s + w'.nbytes)
      (recordImmRm op w (rmFieldAt s) (immFieldAt s (s.pc + (2 + dispBytes s)) w'))
      (ruleImmRm s op w w') := by
  rw [RuleReads, ← Nat.add_assoc, ← Nat.add_assoc]
  refine ⟨fun h => ?_, fun h => ?_⟩
  · rcases Nat.lt_or_ge s.len (s.pc + 2 + dispBytes s) with hdisp | hdisp
    · simp only [ruleImmRm, ruleRmOperand_outside w hmrm hdisp, bind, Except.bind]
    · simp only [ruleImmRm, ruleRmOperand_inside w hdisp, bind, Except.bind, ruleReadImm_outside _ h]
  · simp only [ruleImmRm, ruleRmOperand_inside w (by omega : s.pc + 2 + dispBytes s ≤ s.len), bind,
      Except.bind, ruleReadImm_inside _ h, recordImmRm, kwFor_eq_kwOf, kwOf_immFieldAt]
    rfl

theorem ruleDecodeMovImmRm_no_modRegRm {s : State} (b : Byte) (h : s.len < s.pc + 2) :
    ruleDecodeMovImmRm s b s.pc = .error .outOfBounds := by
  rw [ruleDecodeMovImmRm, ruleMrm_outside h]
  rfl

theorem ruleDecodeMovImmRm_eq {s : State} (hmrm : s.pc + 2 ≤ s.len) :
    ruleDecodeMovImmRm s (byteAfter s 0) s.pc = ruleImmRm s .mov (sizeBit s 0) (sizeBit s 0) := by
  rw [ruleDecodeMovImmRm, ruleMrm_inside hmrm, ruleImmRm, nbytes_sizeBit]
  rfl

theorem ruleDecodeArithImmRm_no_modOpRm {s : State} (b : Byte) (h : s.len < s.pc + 2) :
    ruleDecodeArithImmRm s b s.pc = .error .outOfBounds := by
  rw [ruleDecodeArithImmRm, ruleMrm_outside h]
  rfl

theorem ruleDecodeArithImmRm_undefined {s : State} (b : Byte) (hmrm : s.pc + 2 ≤ s.len)
    (hop3 : ruleSubOp (regField s) = none) : ruleDecodeArithImmRm s b s.pc = .ok .skip := by
  simp only [ruleDecodeArithImmRm, ruleMrm_inside hmrm, bind, Except.bind, hop3]
  rfl

theorem ruleDecodeArithImmRm_eq {s : State} {op : Op} (hmrm : s.pc + 2 ≤ s.len)
    (hop3 : ruleSubOp (regField s) = some op) :
    ruleDecodeArithImmRm s (byteAfter s 0) s.pc = ruleImmRm s op (sizeBit s 0) (arithSize s) := by
  simp only [ruleDecodeArithImmRm, ruleMrm_inside hmrm, bind, Except.bind, hop3, ruleImmRm,
    nbytes_arithSize]
  rfl

theorem ruleReads_immAcc (s : State) (op : Op) :
    RuleReads s (1 + (sizeBit s 0).nbytes)
      (.two op (sizeBit s 0) (accumulator (sizeBit s 0))
        (.imm (immFieldAt s (s.pc + 1) (sizeBit s 0)) .none))
      (ruleDecodeImmAcc s op (byteAfter s 0) s.pc) := by
  rw [RuleReads, ← Nat.add_assoc, ruleDecodeImmAcc, ← nbytes_sizeBit]
  refine ⟨fun h => ?_, fun h => ?_⟩
  · rw [ruleReadImm_outside _ h]
    rfl
  · rw [ruleReadImm_inside _ h]
    rfl

theorem ruleReads_movImmReg (s : State) :
    RuleReads s (1 + (sizeBit s 3).nbytes)
      (recordImmReg .mov (sizeBit s 3) ((byteAfter s 0).extractLsb' 0 3)
        (immFieldAt s (s.pc + 1) (sizeBit s 3)))
      (ruleDecodeMovImmReg s (byteAfter s 0) s.pc) := by
  rw [RuleReads, ← Nat.add_assoc, ruleDecodeMovImmReg, ← nbytes_sizeBit]
  refine ⟨fun h => ?_, fun h => ?_⟩
  · rw [ruleReadImm_outside _ h]
    rfl
  · rw [ruleReadImm_inside _ h]
    rfl

theorem ruleReads_movMemAcc (s : State) (toAcc : Bool) :
    RuleReads s 3
      (recordOf ((if toAcc then Instr.movMemToAcc else Instr.movAccToMem) (sizeBit s 0)
        (wordAfter s 1)))
      (ruleDecodeMovMemAcc s toAcc (byteAfter s 0) s.pc) := by
  refine ⟨fun h => ?_, fun h => ?_⟩
  · rw [ruleDecodeMovMemAcc, memRead2_outside (Nat.le_of_lt_succ h)]
    rfl
  · rw [ruleDecodeMovMemAcc, memRead2_inside h]
    cases toAcc <;> rfl

/-! ### Classification and the selected decoder (R93, R94) -/

/-- CLASS by widths 8, 7, 6, 4 finds the row of CLASSROM. -/
theorem ruleClassify_eq_classify (b : Byte) : ruleClassify b = classify b := by
  revert b
  decide

theorem ruleResult_outside {s : State} (h : s.len ≤ s.pc) : ruleResult s = .error .outOfBounds := by
  rw [ruleResult, memRead1_outside h]
  rfl

theorem ruleResult_of_classify_none {s : State} (hin : s.pc < s.len)
    (hclass : classify (byteAt s s.pc) = none) : ruleResult s = .ok .skip := by
  simp only [ruleResult, memRead1_inside hin, bind, Except.bind, ruleClassify_eq_classify, hclass]
  rfl

end Sys2Proof.Proofs
end

section
/-! PROOFS. The step is the rules' pseudocode (spec/40_classifier.md R92), variant by variant: the family's
rule gives the step, and the reads of its rule decoder give the rules' step. -/

namespace Sys2Proof.Proofs

open Sys2Proof.Machine Sys2Proof.Safety Sys2Proof.Claims Sys2Proof.Laws

/-- The rule decoder a variant selects at the cursor (R94). -/
def ruleDecoder (s : State) : Variant → Except Fault RuleResult
  | .jcc c => ruleDecodeJcc s c s.pc
  | .movMemToAcc => ruleDecodeMovMemAcc s true (byteAfter s 0) s.pc
  | .movAccToMem => ruleDecodeMovMemAcc s false (byteAfter s 0) s.pc
  | .movImmRm => ruleDecodeMovImmRm s (byteAfter s 0) s.pc
  | .addImmAcc => ruleDecodeImmAcc s .add (byteAfter s 0) s.pc
  | .subImmAcc => ruleDecodeImmAcc s .sub (byteAfter s 0) s.pc
  | .cmpImmAcc => ruleDecodeImmAcc s .cmp (byteAfter s 0) s.pc
  | .movRmReg => ruleDecodeRmReg s .mov (byteAfter s 0) s.pc
  | .addRmReg => ruleDecodeRmReg s .add (byteAfter s 0) s.pc
  | .subRmReg => ruleDecodeRmReg s .sub (byteAfter s 0) s.pc
  | .cmpRmReg => ruleDecodeRmReg s .cmp (byteAfter s 0) s.pc
  | .arithImmRm => ruleDecodeArithImmRm s (byteAfter s 0) s.pc
  | .movImmReg => ruleDecodeMovImmReg s (byteAfter s 0) s.pc

theorem ruleResult_of_leads {s : State} {v : Variant} (hs : Leads s v) :
    ruleResult s = ruleDecoder s v := by
  obtain ⟨-, hin, hclass⟩ := hs
  have hclass' : ruleClassify (byteAt s s.pc) = some v :=
    (ruleClassify_eq_classify _).trans hclass
  simp only [ruleResult, memRead1_inside hin, bind, Except.bind, hclass']
  cases v <;> rfl

/-! ### The families -/

section
variable {s : State} {v : Variant} (hs : Leads s v)

include hs in
/-- `step_eq_ruleStep` on a recognised leading byte. -/
theorem step_eq_ruleStep_of_reads {n : Nat} {r : Record} {line : Line} (hstep : DecodesTo s n line)
    (hrule : RuleReads s n r (ruleDecoder s v)) (hline : render r = line) :
    step s = .next (ruleStep s) :=
  step_eq_ruleStep hs.1 hstep (ruleResult_of_leads hs ▸ hrule) hline

include hs in
/-- Both steps take the exception. -/
theorem step_eq_ruleStep_of_faults (hstep : step s = .next (faultedTo s))
    (hrule : ruleDecoder s v = .error .outOfBounds) : step s = .next (ruleStep s) := by
  rw [hstep, ruleStep_of_error hs.1 ((ruleResult_of_leads hs).trans hrule)]

include hs in
theorem step_eq_ruleStep_rmReg {op : Op} {mnemonic : String} (hv : RmRegRule v mnemonic)
    (hop : mnemrom op = mnemonic.toList)
    (hsel : ruleDecoder s v = ruleDecodeRmReg s op (byteAfter s 0) s.pc) :
    step s = .next (ruleStep s) := by
  obtain ⟨hshort, hrest⟩ := hv s hs
  rcases Nat.lt_or_ge s.len (s.pc + 2) with hlt | hmrm
  · exact step_eq_ruleStep_of_faults hs (hshort hlt)
      (hsel.trans (ruleDecodeRmReg_no_modRegRm op _ hlt))
  · refine step_eq_ruleStep_of_reads hs (hrest hmrm) (hsel ▸ ruleReads_rmReg op hmrm) ?_
    rw [render_recordRmReg hop, rmOperand_rmFieldAt]

include hs in
theorem step_eq_ruleStep_immAcc {mk : Width → ImmField → Instr} {op : Op} {mnemonic : String}
    (hv : IsImmAcc v mk op) (hop : mnemrom op = mnemonic.toList)
    (hsel : ruleDecoder s v = ruleDecodeImmAcc s op (byteAfter s 0) s.pc) :
    step s = .next (ruleStep s) := by
  refine step_eq_ruleStep_of_reads hs (hv.decodesTo hop hs) (hsel ▸ ruleReads_immAcc s op) ?_
  rw [render_two hop, renderOperand_immFieldAt]

end

theorem step_eq_ruleStep_movImmReg {s : State} (hs : Leads s .movImmReg) :
    step s = .next (ruleStep s) := by
  have hstep := movImmRegDecoderRule s hs
  simp only [← nbytes_sizeBit] at hstep
  exact step_eq_ruleStep_of_reads hs hstep (ruleReads_movImmReg s)
    (render_recordImmReg (op := .mov) rfl _ _ s 1)

theorem step_eq_ruleStep_movImmRm {s : State} (hs : Leads s .movImmRm) :
    step s = .next (ruleStep s) := by
  obtain ⟨hshort, hrest⟩ := movImmRmDecoderRule s hs
  simp only [← nbytes_sizeBit] at hrest
  rcases Nat.lt_or_ge s.len (s.pc + 2) with hlt | hmrm
  · exact step_eq_ruleStep_of_faults hs (hshort hlt) (ruleDecodeMovImmRm_no_modRegRm _ hlt)
  · have hsel : ruleDecoder s .movImmRm = ruleImmRm s .mov (sizeBit s 0) (sizeBit s 0) :=
      ruleDecodeMovImmRm_eq hmrm
    exact step_eq_ruleStep_of_reads hs (hrest hmrm) (hsel ▸ ruleReads_immRm .mov _ _ hmrm)
      (render_recordImmRm rfl _ _ s)

theorem step_eq_ruleStep_arithImmRm {s : State} (hs : Leads s .arithImmRm) :
    step s = .next (ruleStep s) := by
  rcases Nat.lt_or_ge s.len (s.pc + 2) with hlt | hmrm
  · exact step_eq_ruleStep_of_faults hs (step_arithImmRm_no_modOpRm hs hlt)
      (ruleDecodeArithImmRm_no_modOpRm _ hlt)
  · rcases subOp_cases (regField s) with
      ⟨-, op, mnemonic, hop3, hop, hrule⟩ | ⟨-, hop3, hundef⟩
    · have hstep := hrule s hs hmrm rfl
      simp only [← nbytes_arithSize] at hstep
      have hsel : ruleDecoder s .arithImmRm = ruleImmRm s op (sizeBit s 0) (arithSize s) :=
        ruleDecodeArithImmRm_eq hmrm hop3
      exact step_eq_ruleStep_of_reads hs hstep (hsel ▸ ruleReads_immRm op _ _ hmrm)
        (render_recordImmRm hop _ _ s)
    · have hskip : ruleResult s = .ok .skip :=
        (ruleResult_of_leads hs).trans (ruleDecodeArithImmRm_undefined _ hmrm hop3)
      rw [step_arithImmRm_undefined hs hmrm hundef, ruleStep_of_skip hs.1 hskip]

theorem step_eq_ruleStep_movMemAcc {s : State} {v : Variant} {mk : Width → Word16 → Instr}
    (hs : Leads s v) (hv : ∀ b bs, decodeVariant v b bs = decodeMovMemAcc mk b bs)
    (hlen : ∀ w a, (mk w a).length = 3)
    (hrule : RuleReads s 3 (recordOf (mk (sizeBit s 0) (wordAfter s 1))) (ruleDecoder s v)) :
    step s = .next (ruleStep s) :=
  step_eq_ruleStep_of_reads hs (step_movMemAcc hv hlen hs) hrule rfl

theorem step_eq_ruleStep_of_leads {s : State} {v : Variant} (hs : Leads s v) :
    step s = .next (ruleStep s) := by
  obtain ⟨hmov, hadd, hsub, hcmp⟩ := rmRegDecoderRule
  cases v with
  | jcc c => exact step_eq_ruleStep_of_reads hs (step_jcc hs) (ruleReads_jcc s c) rfl
  | movMemToAcc =>
    exact step_eq_ruleStep_movMemAcc (mk := .movMemToAcc) hs (fun _ _ => rfl) (fun _ _ => rfl)
      (ruleReads_movMemAcc s true)
  | movAccToMem =>
    exact step_eq_ruleStep_movMemAcc (mk := .movAccToMem) hs (fun _ _ => rfl) (fun _ _ => rfl)
      (ruleReads_movMemAcc s false)
  | movImmRm => exact step_eq_ruleStep_movImmRm hs
  | addImmAcc => exact step_eq_ruleStep_immAcc hs isImmAcc_add (mnemonic := "add") rfl rfl
  | subImmAcc => exact step_eq_ruleStep_immAcc hs isImmAcc_sub (mnemonic := "sub") rfl rfl
  | cmpImmAcc => exact step_eq_ruleStep_immAcc hs isImmAcc_cmp (mnemonic := "cmp") rfl rfl
  | movRmReg => exact step_eq_ruleStep_rmReg hs hmov (op := .mov) rfl rfl
  | addRmReg => exact step_eq_ruleStep_rmReg hs hadd (op := .add) rfl rfl
  | subRmReg => exact step_eq_ruleStep_rmReg hs hsub (op := .sub) rfl rfl
  | cmpRmReg => exact step_eq_ruleStep_rmReg hs hcmp (op := .cmp) rfl rfl
  | arithImmRm => exact step_eq_ruleStep_arithImmRm hs
  | movImmReg => exact step_eq_ruleStep_movImmReg hs

/-! ### The step outside the variants -/

/-- In `RUN` with no byte at the cursor the step takes the exception (log 8). -/
theorem step_of_outside {s : State} (hrun : s.status = .run) (h : s.len ≤ s.pc) :
    step s = .next (faultedTo s) := by
  rw [step_run hrun, fetch_end h]
  rfl

/-- Settles O12: a terminal status, no byte at the cursor, an unrecognised byte, and each variant. -/
theorem stepFollowsTheRules : Obligations.StepFollowsTheRules := by
  intro s
  by_cases hrun : s.status = .run
  · rcases Nat.lt_or_ge s.pc s.len with hin | hout
    · cases hclass : classify (byteAfter s 0) with
      | none =>
        rw [step_skips_of_classify_none hrun hin hclass,
          ruleStep_of_skip hrun (ruleResult_of_classify_none hin hclass)]
      | some v => exact step_eq_ruleStep_of_leads ⟨hrun, hin, hclass⟩
    · rw [step_of_outside hrun hout, ruleStep_of_error hrun (ruleResult_outside hout)]
  · rw [step_idle hrun, ruleStep, if_pos hrun]

end Sys2Proof.Proofs
end
